-- ==== Sys2Proof/Word.lean ====
section
/-! DEFINITION. The plain data the block works on: bits, bytes and byte buffers (spec/00_scope.md R11, R12). -/

namespace Sys2Proof

/-- A byte: an unsigned 8-bit value (R12). -/
abbrev Byte := BitVec 8

/-- A field or value one bit wide; `true` is 1 and `false` is 0 (R12). -/
abbrev Bit := Bool

/-- A byte buffer, byte 0 first (R11, R40). Its length is the list's length: a request carries its
buffer's length along with its bytes (R60). -/
abbrev Buf := List Byte

/-- A virtual codeword: 128 bits, position 0 the most significant (R11, R16). It is ephemeral: a request or response
carries it as a 16-byte buffer (R26, R40). -/
abbrev Codeword := BitVec 128

end Sys2Proof
end

