-- ==== Sys2Proof/Config.lean ====
section
/-! DEFINITION. The constants the source fixes (spec/00_scope.md R8) and the one parameter it leaves open (R10). -/

namespace Sys2Proof.Config

/-- A payload is 15 bytes, 120 bits (R8). -/
def payloadSize : Nat := 15

/-- A ParityByte is 1 byte, 8 check-bit slots (R8). -/
def paritySize : Nat := 1

/-- A codeword has 128 bit positions (R8). -/
def codewordBits : Nat := 128

/-- A codeword is 16 bytes (R8, R40). -/
def codewordSize : Nat := 16

/-- The offset that makes a check-bit entry of the lookup table negative (R8). -/
def parityBitOffset : Int := 100

/-- The number of Hamming check bits (R8). -/
def hammingBits : Nat := 7

end Sys2Proof.Config

namespace Sys2Proof

/-- What the source leaves open about one block (R10): how far `BUF_MAX_BYTES` exceeds 16. -/
structure Params where
  /-- `BUF_MAX_BYTES - 16`, so that the parameter's only constraint, at least 16, holds of every value. -/
  bufBeyondCodeword : Nat
  deriving DecidableEq, Repr

/-- `BUF_MAX_BYTES`, the longest buffer one request can carry; "must be >= 16" so that a whole codeword fits
(R10, R61). -/
def Params.bufMaxBytes (p : Params) : Nat := Config.codewordSize + p.bufBeyondCodeword

/-- DESIGN CHOICE (log entry 1): the value at reset is 8192 bytes in all, the longest buffer whose every bit a
16-bit index can name. -/
def Params.initial : Params := ⟨8176⟩

end Sys2Proof
end

