-- ==== Sys2Proof/Syntax.lean ====
section
/-! DEFINITION. The request as it is encoded, and the operation it asks for: one constructor per row of
spec/opcode_table.json (spec/30_encoding.md R60, R63). -/

namespace Sys2Proof

/-- One request, field by field (R60). -/
structure Request where
  /-- Operation select, `op[2:0]`. -/
  op : BitVec 3
  /-- ParityByte operand. -/
  pb : Byte
  /-- Bit index, or lookup-table index. -/
  idx : BitVec 16
  /-- Bit value to write. -/
  val : Bit
  /-- Byte-buffer operand. -/
  buf : Buf
  deriving DecidableEq, Repr

/-- One operation with the operands it reads, in the order of the assembly syntax (R63, R68). -/
inductive Instr where
  /-- `op = 000`, `ENCODE <buf>` (R150). -/
  | encode (buf : Buf)
  /-- `op = 001`, `DECODE <pb>, <buf>` (R170). -/
  | decode (pb : Byte) (buf : Buf)
  /-- `op = 010`, `BITGET <buf>, <idx>` (R100). -/
  | bitget (buf : Buf) (idx : BitVec 16)
  /-- `op = 011`, `BITSET <buf>, <idx>, <val>` (R104). -/
  | bitset (buf : Buf) (idx : BitVec 16) (val : Bit)
  /-- `op = 100`, `INTERLEAVE <pb>, <buf>` (R130). -/
  | interleave (pb : Byte) (buf : Buf)
  /-- `op = 101`, `EXTRACT <buf>` (R140). -/
  | extract (buf : Buf)
  /-- `op = 110`, `LUTRD <idx>` (R124). -/
  | lutrd (idx : BitVec 16)
  /-- `op = 111`, reserved: no operand is examined (R66, R204). -/
  | reserved
  deriving DecidableEq, Repr

end Sys2Proof
end

