-- ==== Sys2Proof/WellFormed.lean ====
section
/-! DEFINITION. What the host can present: the one check on a request that its field widths do not make by
themselves is the length of its buffer (spec/30_encoding.md R61). -/

namespace Sys2Proof

/-- The request fits the request port: its buffer is at most `BUF_MAX_BYTES` long (R60, R61). It is checked whether
or not the operation reads the buffer. -/
def Request.fits (p : Params) (q : Request) : Bool := decide (q.buf.length ≤ p.bufMaxBytes)

/-- The byte-buffer operand an operation reads, empty where it reads none. -/
def Instr.buffer : Instr → Buf
  | .encode buf => buf
  | .decode _ buf => buf
  | .bitget buf _ => buf
  | .bitset buf _ _ => buf
  | .interleave _ buf => buf
  | .extract buf => buf
  | .lutrd _ => []
  | .reserved => []

/-- An operation a request can carry: its buffer operand fits the port (R61). -/
def Instr.wellFormed (p : Params) (i : Instr) : Bool := decide (i.buffer.length ≤ p.bufMaxBytes)

end Sys2Proof
end

