-- ==== Sys2Proof/Decode.lean ====
section
/-! DEFINITION. From a request to the operation it asks for, and back (spec/30_encoding.md R60 to R63, R66 to R68).
The packing of the 28 fixed bits into one word is the model's (DESIGN CHOICE, log entry 4). -/

namespace Sys2Proof

/-- The operation a request selects, by `op` alone (R63, R67). A field the operation does not read is dropped here,
so it cannot change the response (R62). Every value of `op` has a row, `111` the reserved one (R66). -/
def decode (q : Request) : Instr :=
  match q.op.toNat with
  | 0 => .encode q.buf
  | 1 => .decode q.pb q.buf
  | 2 => .bitget q.buf q.idx
  | 3 => .bitset q.buf q.idx q.val
  | 4 => .interleave q.pb q.buf
  | 5 => .extract q.buf
  | 6 => .lutrd q.idx
  | _ => .reserved

/-- The `op` value of an operation (R63). -/
def Instr.opcode : Instr → BitVec 3
  | .encode _ => 0b000#3
  | .decode _ _ => 0b001#3
  | .bitget _ _ => 0b010#3
  | .bitset _ _ _ => 0b011#3
  | .interleave _ _ => 0b100#3
  | .extract _ => 0b101#3
  | .lutrd _ => 0b110#3
  | .reserved => 0b111#3

/-- A request with this `op` and every other field 0 (R68: "fields not named are 0"). -/
def Request.blank (op : BitVec 3) : Request := { op := op, pb := 0#8, idx := 0#16, val := false, buf := [] }

/-- The request that asks for an operation: its `op` value plus the named fields, the others 0 (R63, R68). -/
def encode (i : Instr) : Request :=
  match i with
  | .encode buf => { Request.blank i.opcode with buf := buf }
  | .decode pb buf => { Request.blank i.opcode with pb := pb, buf := buf }
  | .bitget buf idx => { Request.blank i.opcode with buf := buf, idx := idx }
  | .bitset buf idx val => { Request.blank i.opcode with buf := buf, idx := idx, val := val }
  | .interleave pb buf => { Request.blank i.opcode with pb := pb, buf := buf }
  | .extract buf => { Request.blank i.opcode with buf := buf }
  | .lutrd idx => { Request.blank i.opcode with idx := idx }
  | .reserved => Request.blank i.opcode

/-- The fixed fields of a request, `3 + 8 + 16 + 1 = 28` bits (R67), as one word: `op` in bits 2..0 as opcode_table.json numbers it, then `pb` in
10..3, `idx` in 26..11 and `val` in bit 27, in the order of R60 (DESIGN CHOICE, log entry 4). -/
def Request.head (q : Request) : BitVec 28 := BitVec.ofBool q.val ++ q.idx ++ q.pb ++ q.op

/-- The request with these 28 fixed bits and this buffer (DESIGN CHOICE, log entry 4). -/
def Request.ofHead (h : BitVec 28) (buf : Buf) : Request where
  op := h.extractLsb' 0 3
  pb := h.extractLsb' 3 8
  idx := h.extractLsb' 11 16
  val := h.getLsbD 27
  buf := buf

/-- Why a word and a buffer are no request. -/
inductive DecodeError where
  /-- A bit above the 28 fixed bits is set: no field of R60 holds it. Safe: nothing is claimed of such a word. -/
  | strayHeadBits
  deriving DecidableEq, Repr

/-- The operation the fixed bits `w` and the buffer ask for; a word with a bit above the 28 is refused by name. -/
def decodeHead (w : Nat) (buf : Buf) : Except DecodeError Instr :=
  if w < 2 ^ 28 then .ok (decode (Request.ofHead (BitVec.ofNat 28 w) buf))
  else .error .strayHeadBits

/-- The instruction whose first `nbits` bits are `w`, every other bit 0 and the buffer empty; none where the decoder
refuses. -/
def decodeTableWord (nbits w : Nat) : Option Instr :=
  match decodeHead (w % 2 ^ nbits) [] with
  | .ok i => some i
  | .error _ => none

end Sys2Proof
end

