-- ==== Sys2Proof/Machine/State.lean ====
section
/-! DEFINITION. The state of one block and its request interface, the responses, and the reasons a step can stop
(spec/10_state.md R20 to R29, spec/30_encoding.md R64, R65, spec/60_exceptions.md R200). -/

namespace Sys2Proof.Machine

/-- The errors a response's status can name (R200). The errors of the layers above the block (R212) are none of
them. -/
inductive ErrorCode where
  /-- The payload is not 15 bytes: `ENCODE`, `DECODE`, `INTERLEAVE` (R201). -/
  | invalidPayloadSize
  /-- The codeword is not 16 bytes: `EXTRACT` (R202). -/
  | invalidDataSize
  /-- `op = 111` (R204). -/
  | illegalOperation
  /-- The bit index is at or past the buffer's end: `BITGET`, `BITSET` (R203). -/
  | bitIndexOutOfRange
  /-- The table index is at or past 128: `LUTRD` (R205). -/
  | lutIndexOutOfRange
  deriving DecidableEq, Repr

/-- The decode classification, by the source's names (R65, R173). -/
inductive Classification where
  | valid
  | recoverableErrorInData
  | recoverableErrorInParity
  | nonRecoverableError
  deriving DecidableEq, Repr

/-- The result fields of a successful response: one constructor per operation, holding exactly the fields that
operation writes (R64). -/
inductive Result where
  | encode (r_pb : Byte)
  | decode (r_class : Classification) (r_index : BitVec 7) (r_syn : BitVec 7) (r_ovp : Bit)
  | bitget (r_bit : Bit)
  | bitset (r_buf : Buf)
  | interleave (r_buf : Buf)
  | extract (r_pb : Byte)
  | lutrd (r_lut : BitVec 8) (r_kind : Bit) (r_target : BitVec 7)
  deriving DecidableEq, Repr

/-- A response: an error with no result field, or a result with status `OK` (R64). -/
inductive Response where
  | ok (r : Result)
  | error (e : ErrorCode)
  deriving DecidableEq, Repr

/-- The state of the block itself: the unit type (R28). It holds no register, program counter, flag, buffer or hidden
state (R20 to R27), and its one table is the constant `lut` (R25). -/
structure Block where
  deriving DecidableEq, Repr

/-- The request interface of one block, where the host's requests wait and the exchange under way stands. No operation
reads anything of it but its own request (R27). -/
structure Port where
  /-- `BUF_MAX_BYTES` of this block; no step changes it (R10, log entry 1). -/
  params : Params
  /-- The requests the host has presented and the block has not accepted, oldest first (R46). The model's own field
  (log entry 2). -/
  incoming : List Request
  /-- The request in progress: accepted and not yet answered (R29). A step accepts a request and answers it, so one is
  in progress only inside a step, where a reset can meet it (R231, log entry 2). -/
  inProgress : Option Request
  /-- The pending response (R64, R230). -/
  response : Option Response
  /-- The completed exchanges, oldest first: the sequence of (request, response) pairs of R46. The model's own field
  (log entry 2); no operation reads it. -/
  history : List (Request × Response)
  deriving DecidableEq, Repr

/-- What the machine holds: the block, which is the unit type (R28), and its request interface. -/
structure State extends Block, Port where
  deriving DecidableEq, Repr

/-- Reasons for the machine to stop with a fault. There is NONE: every error of the spec ends one request with an
error response and the block goes on (R208, R209; log entry 6). Nothing raises a fault, so the type is empty; this is
safe, since no behaviour is cut off. -/
inductive Fault where
  deriving DecidableEq, Repr

/-- Reasons for the model to take no step. -/
inductive Refusal where
  /-- Raised by a dispatch arm for an instruction without a meaning. No arm raises it. Safe. -/
  | notModelled (mnemonic : String)
  /-- Raised by `acceptNext` in a step when the request to be accepted carries a buffer longer than `BUF_MAX_BYTES`: "A model refuses
  such a request at the boundary. It is not a fault of the block" (R61). Safe: no response is claimed for it. -/
  | bufferTooLong
  deriving DecidableEq, Repr

/-- Right after reset: no request in progress, no response pending, nothing else exists (R29, R230). The parameter's
value and the two empty host-side lists are the model's (log entries 1, 2). -/
def State.reset : State where
  params := Params.initial
  incoming := []
  inProgress := none
  response := none
  history := []

end Sys2Proof.Machine
end

