-- ==== Sys2Proof/Machine/Operands.lean ====
section
/-! DEFINITION. How a buffer operand is read and written: bits, the lookup table, and the mapping between payload,
ParityByte and codeword (spec/00_scope.md R11, R14; spec/40_bitbuffer.md; spec/41_lut_interleave.md R120 to R141). -/

namespace Sys2Proof.Machine

/-! ### Bits of a byte, a codeword and a buffer -/

/-- Bit `k` of a byte or codeword, MSB-first: the bit of weight `2^(w - 1 - k)` (R11, R42). -/
def bitOf {w : Nat} (x : BitVec w) (k : Nat) : Bit := x.getMsbD k

/-- The mask of bit `k`, `0x80 >> k` in a byte (R42, R104). -/
def bitMask (w k : Nat) : BitVec w := BitVec.twoPow w (w - 1 - k)

/-- A byte or codeword with bit `k` set to `v`, all other bits unchanged: cleared by the mask's complement, then the
mask put in if `v` is 1 (R104, R105). -/
def withBit {w : Nat} (x : BitVec w) (k : Nat) (v : Bit) : BitVec w :=
  (x &&& ~~~ bitMask w k) ||| (if v then bitMask w k else 0#w)

/-- `bit(buf, k)`: the bit of weight `2^(7 - k mod 8)` in byte `k div 8` (R11, R101). Every use has `k` inside the
buffer; past the end the definition gives 0, which no operation shows (log entry 7). -/
def getBit (buf : Buf) (k : Nat) : Bit := bitOf (buf.getD (k / 8) 0#8) (k % 8)

/-- `buf with bit k := v`: a copy whose bit `k` is `v`, all other bits unchanged (R104, R105). Every use has `k` inside
the buffer; past the end the definition gives `buf` itself, which no operation shows (log entry 7). -/
def setBit (buf : Buf) (k : Nat) (v : Bit) : Buf :=
  buf.set (k / 8) (withBit (buf.getD (k / 8) 0#8) (k % 8) v)

/-- The bit index `k` is inside the buffer; an index at or past `8 * len(buf)` is not (R43, R203). -/
def bitInRange (buf : Buf) (k : Nat) : Bool := decide (k < 8 * buf.length)

/-! ### The lookup table -/

/-- The exponents `p` of the powers of two below 128. -/
def hammingExponents : List Nat := List.range Config.hammingBits

/-- The number of zero bits below the lowest set bit of `i` (R12), for `1 ≤ i < 128`. -/
def trailingZeroCount (i : Nat) : Nat := (hammingExponents.takeWhile (fun p => !i.testBit p)).length

/-- The number of powers of two at most `i`, counting `2^0 = 1` (R121), for `i < 128`. -/
def powersOfTwoUpTo (i : Nat) : Nat := hammingExponents.countP (fun p => decide (2 ^ p ≤ i))

/-- `LUT[i]` for `i < 128`, by the first case that applies (R120). -/
def lut (i : Nat) : Int :=
  if i = 0 then 0 - Config.parityBitOffset
  else if i &&& (i - 1) = 0 then trailingZeroCount i + 1 - Config.parityBitOffset
  else i - powersOfTwoUpTo i - 1

/-- The entry names a check-bit slot: it "is negative iff it addresses a check-bit slot" (R15, R123). -/
def isCheckEntry (e : Int) : Bool := decide (e < 0)

/-- The slot index of a check-bit entry, recovered by adding back `parityBitOffset` (R15, R123). -/
def slotOf (e : Int) : Nat := (e + Config.parityBitOffset).toNat

/-- The payload bit index of any other entry (R123). -/
def payloadBitOf (e : Int) : Nat := e.toNat

/-- The virtual codeword positions, `[0, 128)` (R16). -/
def positions : List Nat := List.range Config.codewordBits

/-! ### Interleave and extract -/

/-- The bit interleaving puts at codeword position `i`: the ParityByte's slot or the payload's bit that the table
names (R130). -/
def codewordBit (pb : Byte) (payload : Buf) (i : Nat) : Bit :=
  if isCheckEntry (lut i) then bitOf pb (slotOf (lut i)) else getBit payload (payloadBitOf (lut i))

/-- The codeword, built position by position from zeros (R130). -/
def interleaveBits (pb : Byte) (payload : Buf) : Codeword :=
  positions.foldl (fun cw i => withBit cw i (codewordBit pb payload i)) 0#128

/-- The 16 bytes of a codeword, byte `j` holding positions `8j` to `8j+7` (R42). -/
def codewordBytes (cw : Codeword) : Buf :=
  (List.range Config.codewordSize).map (fun j => cw.extractLsb' (Config.codewordBits - 8 - 8 * j) 8)

/-- `getHammingInterlacedData`: the length check, then the codeword (R130, R201). -/
def getHammingInterlacedData (pb : Byte) (payload : Buf) : Except ErrorCode Codeword :=
  if payload.length ≠ Config.payloadSize then .error .invalidPayloadSize
  else .ok (interleaveBits pb payload)

/-- One position of the extraction loop: a check-bit position is copied into its slot, any other is skipped (R140). -/
def extractStep (buf : Buf) (p : Byte) (i : Nat) : Byte :=
  if isCheckEntry (lut i) then withBit p (slotOf (lut i)) (getBit buf i) else p

/-- The ParityByte of a codeword buffer, slot by slot from zeros (R140). -/
def extractBits (buf : Buf) : Byte := positions.foldl (extractStep buf) 0#8

/-- `setParity`: the length check, then the ParityByte (R140, R202). -/
def setParity (buf : Buf) : Except ErrorCode Byte :=
  if buf.length ≠ Config.codewordSize then .error .invalidDataSize
  else .ok (extractBits buf)

end Sys2Proof.Machine
end

