-- ==== Sys2Proof/Machine/Flags.lean ====
section
/-! DEFINITION. The check bits and the conditions computed from a codeword: Hamming sums, overall parity, syndrome,
classification (spec/42_encode.md R150; spec/43_decode.md R170 to R173). The block holds no flag (R22): these are
values of a response. -/

namespace Sys2Proof.Machine

/-- `XOR_{i in is} f(i)`, 0 for the empty set (R14). -/
def xorOver (is : List Nat) (f : Nat → Bit) : Bit :=
  match is with
  | [] => false
  | i :: rest => xor (f i) (xorOver rest f)

/-- The positions every sum runs over, `[1, 128)` (R150, R171). -/
def sumPositions : List Nat := List.range' 1 (Config.codewordBits - 1)

/-- The positions of the sum for Hamming position `p`: those with `(i AND (1<<p)) != 0` (R150). -/
def hammingPositions (p : Nat) : List Nat := sumPositions.filter (fun i => (i &&& (1 <<< p)) != 0)

/-- The XOR of the codeword bits at the positions of `p`, written into codeword bit `1<<p` (R150). -/
def writeHammingBit (cw : Codeword) (p : Nat) : Codeword :=
  withBit cw (1 <<< p) (xorOver (hammingPositions p) (bitOf cw))

/-- The seven Hamming check bits, written in the order of `p` (R150). -/
def writeHammingBits (cw : Codeword) : Codeword := hammingExponents.foldl writeHammingBit cw

/-- The XOR of the codeword bits at positions 1 to 127 (R150, R172). -/
def sumParity (cw : Codeword) : Bit := xorOver sumPositions (bitOf cw)

/-- The overall parity, written into codeword bit 0 (R150). -/
def writeOverallParity (cw : Codeword) : Codeword := withBit cw 0 (sumParity cw)

/-- `calculateParity`: the ParityByte of a payload (R150). Both inner checks stand, though the second can never fail
(R155). -/
def calculateParity (payload : Buf) : Except ErrorCode Byte :=
  match getHammingInterlacedData 0#8 payload with
  | .error e => .error e
  | .ok cw => setParity (codewordBytes (writeOverallParity (writeHammingBits cw)))

/-- The XOR, as 7-bit integers, of the positions of a list whose codeword bit is 1. -/
def syndromeOver (is : List Nat) (cw : Codeword) : BitVec 7 :=
  match is with
  | [] => 0#7
  | i :: rest => (if bitOf cw i then BitVec.ofNat 7 i else 0#7) ^^^ syndromeOver rest cw

/-- The syndrome: the XOR of every position in `[1, 128)` whose bit is 1 (R171). -/
def syndrome (cw : Codeword) : BitVec 7 := syndromeOver sumPositions cw

/-- The overall parity of a codeword, position 0 included (R172). -/
def overallParity (cw : Codeword) : Bit := xor (bitOf cw 0) (sumParity cw)

/-- The classification and its bit index, by syndrome and overall parity alone (R173, R174). The index 0 of `Valid`
and `NonRecoverableError` is the spec's own value, which no claim may read (93_implementation_defined.md I5, log
entry 9). -/
def classify (syn : BitVec 7) (ovp : Bit) : Classification × BitVec 7 :=
  if syn = 0#7 ∧ ovp = false then (.valid, 0#7)
  else if syn ≠ 0#7 ∧ ovp = true then
    let flipped := lut syn.toNat
    if isCheckEntry flipped then (.recoverableErrorInParity, BitVec.ofNat 7 (slotOf flipped))
    else (.recoverableErrorInData, BitVec.ofNat 7 (payloadBitOf flipped))
  else (.nonRecoverableError, 0#7)

/-- The decode result of a codeword: classification, index, syndrome and overall parity (R176). -/
def decodeResult (cw : Codeword) : Result :=
  .decode (classify (syndrome cw) (overallParity cw)).1 (classify (syndrome cw) (overallParity cw)).2
    (syndrome cw) (overallParity cw)

/-- `checkParity`: the length check, then the decode result of the stored ParityByte and the payload (R170, R175). -/
def checkParity (pb : Byte) (payload : Buf) : Except ErrorCode Result :=
  (getHammingInterlacedData pb payload).map decodeResult

/-- The 2-bit code of a classification in `r_class` (R65). -/
def Classification.code : Classification → BitVec 2
  | .valid => 0b00#2
  | .recoverableErrorInData => 0b01#2
  | .recoverableErrorInParity => 0b10#2
  | .nonRecoverableError => 0b11#2

/-- The status number of an error (R200). -/
def ErrorCode.code : ErrorCode → BitVec 3
  | .invalidPayloadSize => 1#3
  | .invalidDataSize => 2#3
  | .illegalOperation => 3#3
  | .bitIndexOutOfRange => 4#3
  | .lutIndexOutOfRange => 5#3

/-- The 3-bit status field of a response: 0 is `OK` (R64, R200). -/
def Response.status : Response → BitVec 3
  | .ok _ => 0#3
  | .error e => e.code

end Sys2Proof.Machine
end

