-- ==== Sys2Proof/Machine/Ops.lean ====
section
/-! DEFINITION. The operations on the state that every instruction and the step share: giving the response, raising
an error, accepting a request and completing an exchange (spec/20_memory.md R46; spec/60_exceptions.md R200 to R209). -/

namespace Sys2Proof.Machine

/-- What a step can answer. -/
abbrev StepOutcome := Host.Outcome State Fault Refusal

/-- Give the response: the one thing an operation does to the state (R64, R178). -/
def State.respond (r : Response) (s : State) : State := { s with response := some r }

/-- Raise an error: the request ends at once, its response carries the status and no result, and nothing else changes.
There is no vector, handler or saved state (R208). The block then accepts the next request in the same way, so there
is no return operation (R209). -/
def State.raise (e : ErrorCode) (s : State) : State := s.respond (.error e)

/-- End the request: with its result, or with the error it raised (R14, R64). -/
def answer (x : Except ErrorCode Result) (s : State) : StepOutcome :=
  match x with
  | .ok r => .next (s.respond (.ok r))
  | .error e => .next (s.raise e)

/-- Accept a request on an idle block: it is in progress and has no response yet (R46). -/
def State.accept (q : Request) (s : State) : State := { s with inProgress := some q, response := none }

/-- Complete the exchange: the request in progress and its response join the sequence of pairs, and the block is idle
again. The response stays pending until the next request is accepted (R46, R64; log entry 2). -/
def State.complete (s : State) : State :=
  match s.inProgress, s.response with
  | some q, some r => { s with inProgress := none, history := s.history ++ [(q, r)] }
  | _, _ => s

/-- Go on from a next state; a fault or a refusal stands. -/
def andThen {β : Type} (o : StepOutcome) (k : State → Host.Outcome β Fault Refusal) : Host.Outcome β Fault Refusal :=
  match o with
  | .next t => k t
  | .fault f => .fault f
  | .refused r => .refused r

/-- The outcome of an operation, carried on to the completed exchange. -/
def completing (o : StepOutcome) : StepOutcome := andThen o (fun t => .next t.complete)

/-- Take the oldest presented request, or refuse it at the boundary when its buffer is longer than `BUF_MAX_BYTES`
(R46, R61). With a request in progress no other is accepted (R46), and with none presented there is none to accept
(R219). -/
def acceptNext (s : State) : StepOutcome :=
  match s.inProgress, s.incoming with
  | some _, _ => .next s
  | none, [] => .next s
  | none, q :: rest =>
    if q.fits s.params then .next (State.accept q { s with incoming := rest })
    else .refused .bufferTooLong

/-- The host presents one more request; any request may be presented at any time (R213). -/
def State.present (q : Request) (s : State) : State := { s with incoming := s.incoming ++ [q] }

/-- The host resets the block: every field of the block is as after reset, and the request in progress is abandoned
without a response (R230, R231). The parameter is not state, and the exchanges already completed have happened; the
requests presented and not yet accepted are dropped (DESIGN CHOICE, log entry 5). -/
def State.hostReset (s : State) : State := { State.reset with params := s.params, history := s.history }

end Sys2Proof.Machine
end

