-- ==== Sys2Proof/Machine/BitBuffer.lean ====
section
/-! DEFINITION. The BitBuffer operations BITGET and BITSET (spec/40_bitbuffer.md). -/

namespace Sys2Proof.Machine

/-- The bit at `k = zext(idx)`, or `BitIndexOutOfRange` (R100, R102). -/
def bitgetAnswer (buf : Buf) (idx : BitVec 16) : Except ErrorCode Result :=
  if bitInRange buf idx.toNat then .ok (.bitget (getBit buf idx.toNat)) else .error .bitIndexOutOfRange

/-- `BITGET <buf>, <idx>` (R100). -/
def execBitget (buf : Buf) (idx : BitVec 16) (s : State) : StepOutcome := answer (bitgetAnswer buf idx) s

/-- The buffer with the bit at `k = zext(idx)` set to `val`, as a new buffer, or `BitIndexOutOfRange` and no buffer
(R104, R45, R107). -/
def bitsetAnswer (buf : Buf) (idx : BitVec 16) (val : Bit) : Except ErrorCode Result :=
  if bitInRange buf idx.toNat then .ok (.bitset (setBit buf idx.toNat val)) else .error .bitIndexOutOfRange

/-- `BITSET <buf>, <idx>, <val>` (R104). -/
def execBitset (buf : Buf) (idx : BitVec 16) (val : Bit) (s : State) : StepOutcome :=
  answer (bitsetAnswer buf idx val) s

end Sys2Proof.Machine
end

