-- ==== Sys2Proof/Machine/Codec.lean ====
section
/-! DEFINITION. The encoder ENCODE and the decoder DECODE (spec/42_encode.md, spec/43_decode.md). -/

namespace Sys2Proof.Machine

/-- The payload's ParityByte (R150). -/
def encodeAnswer (buf : Buf) : Except ErrorCode Result := (calculateParity buf).map .encode

/-- `ENCODE <buf>` (R150). -/
def execEncode (buf : Buf) (s : State) : StepOutcome := answer (encodeAnswer buf) s

/-- Classification, bit index, syndrome and overall parity of a stored ParityByte and a payload (R170, R176). -/
def decodeAnswer (pb : Byte) (buf : Buf) : Except ErrorCode Result := checkParity pb buf

/-- `DECODE <pb>, <buf>`: no classification is an error and nothing is corrected (R170, R178). -/
def execDecode (pb : Byte) (buf : Buf) (s : State) : StepOutcome := answer (decodeAnswer pb buf) s

end Sys2Proof.Machine
end

