-- ==== Sys2Proof/Machine/Mapping.lean ====
section
/-! DEFINITION. The operations that expose the codec's internal steps: LUTRD, INTERLEAVE and EXTRACT
(spec/41_lut_interleave.md R124 to R143). -/

namespace Sys2Proof.Machine

/-- The result of reading table entry `e`: the entry as an 8-bit two's complement byte, whether it names a check-bit
slot, and the slot or payload bit it names (R124). -/
def lutResult (e : Int) : Result :=
  .lutrd (BitVec.ofInt 8 e) (isCheckEntry e) (BitVec.ofNat 7 (if isCheckEntry e then slotOf e else payloadBitOf e))

/-- Table entry `k = zext(idx)`, or `LutIndexOutOfRange` when `k ≥ 128` (R124, R205). -/
def lutrdAnswer (idx : BitVec 16) : Except ErrorCode Result :=
  if idx.toNat < Config.codewordBits then .ok (lutResult (lut idx.toNat)) else .error .lutIndexOutOfRange

/-- `LUTRD <idx>` (R124). -/
def execLutrd (idx : BitVec 16) (s : State) : StepOutcome := answer (lutrdAnswer idx) s

/-- The 16 bytes of the codeword of a ParityByte and a payload (R130). -/
def interleaveAnswer (pb : Byte) (buf : Buf) : Except ErrorCode Result :=
  (getHammingInterlacedData pb buf).map (fun cw => .interleave (codewordBytes cw))

/-- `INTERLEAVE <pb>, <buf>` (R130). -/
def execInterleave (pb : Byte) (buf : Buf) (s : State) : StepOutcome := answer (interleaveAnswer pb buf) s

/-- The ParityByte of a codeword (R140). -/
def extractAnswer (buf : Buf) : Except ErrorCode Result := (setParity buf).map .extract

/-- `EXTRACT <buf>` (R140). -/
def execExtract (buf : Buf) (s : State) : StepOutcome := answer (extractAnswer buf) s

end Sys2Proof.Machine
end

