-- ==== Sys2Proof/Machine/Reserved.lean ====
section
/-! DEFINITION. The reserved operation (spec/60_exceptions.md R204). -/

namespace Sys2Proof.Machine

/-- `IllegalOperation`, decided from `op` alone; no operand is examined (R204, R207). -/
def reservedAnswer : Except ErrorCode Result := .error .illegalOperation

/-- `op = 111` (R204). -/
def execReserved (s : State) : StepOutcome := answer reservedAnswer s

end Sys2Proof.Machine
end

