-- ==== Sys2Proof/Machine/Dispatch.lean ====
section
/-! DEFINITION. One arm per constructor of Instr (spec/30_encoding.md R63). -/

namespace Sys2Proof.Machine

def exec (i : Instr) (s : State) : Host.Outcome State Fault Refusal :=
  match i with
  | .encode buf => Sys2Proof.Machine.execEncode buf s
  | .decode pb buf => Sys2Proof.Machine.execDecode pb buf s
  | .bitget buf idx => Sys2Proof.Machine.execBitget buf idx s
  | .bitset buf idx val => Sys2Proof.Machine.execBitset buf idx val s
  | .interleave pb buf => Sys2Proof.Machine.execInterleave pb buf s
  | .extract buf => Sys2Proof.Machine.execExtract buf s
  | .lutrd idx => Sys2Proof.Machine.execLutrd idx s
  | .reserved => Sys2Proof.Machine.execReserved s

end Sys2Proof.Machine
end

