-- ==== Sys2Proof/Machine/Exchange.lean ====
section
/-! DEFINITION. Performing an accepted request (spec/20_memory.md R46; spec/30_encoding.md R63, R64). -/

namespace Sys2Proof.Machine

/-- Perform the request in progress: run the operation it decodes to and complete its exchange. With none in progress
the block does nothing (R219). -/
def performInProgress (s : State) : StepOutcome :=
  match s.inProgress with
  | some q => completing (exec (decode q) s)
  | none => .next s

end Sys2Proof.Machine
end

