-- ==== Sys2Proof/Machine/Step.lean ====
section
/-! DEFINITION. One step of the block (spec/10_state.md R28, spec/20_memory.md R46) and how the host places the next
request word (log entries 3, 4). -/

namespace Sys2Proof.Machine

/-- One step maps one request to one response (R28): the oldest presented request is accepted, performed and answered.
A request already in progress is answered first, since each response is complete before the next request is accepted
(R46). With no request at all a step does nothing (R219). -/
def step (s : State) : Host.Outcome State Fault Refusal := andThen (acceptNext s) performInProgress

/-- The state in which the request whose first `nbits` bits are `w`, every other bit 0 and the buffer empty, is the
request in progress, so that the next step performs it. A word with a bit above the 28 fixed bits, which the decoder
refuses, loses that bit. -/
def State.withFetchWord (s : State) (nbits w : Nat) : State :=
  s.accept (Request.ofHead (BitVec.ofNat 28 (w % 2 ^ nbits)) [])

end Sys2Proof.Machine
end

