-- ==== Sys2Proof/Machine/Assembly.lean ====
section
/-! DEFINITION. The assembly line of a request, read and written (spec/30_encoding.md R68). Operands are literals: a
host variable name (R69) is the host's to replace by its value first. Spacing, letter case of hex digits and leading
zeros are the model's (DESIGN CHOICE, log entry 13). -/

namespace Sys2Proof.Machine

/-- A line of text. -/
abbrev Line := List Char

/-! ### Reading -/

/-- The value of a hex digit, of either letter case. -/
def hexValue (c : Char) : Option Nat :=
  if 48 ≤ c.toNat ∧ c.toNat ≤ 57 then some (c.toNat - 48)
  else if 97 ≤ c.toNat ∧ c.toNat ≤ 102 then some (c.toNat - 87)
  else if 65 ≤ c.toNat ∧ c.toNat ≤ 70 then some (c.toNat - 55)
  else none

/-- A byte from its two hex digits. -/
def hexByte (hi lo : Char) : Option Byte :=
  match hexValue hi, hexValue lo with
  | some h, some l => some (BitVec.ofNat 8 (16 * h + l))
  | _, _ => none

/-- The bytes up to the closing quote, two hex digits each, byte 0 first. -/
def quotedBytes : Line → Option Buf
  | [c] => if c = '\'' then some [] else none
  | a :: b :: rest =>
    match hexByte a b, quotedBytes rest with
    | some x, some xs => some (x :: xs)
    | _, _ => none
  | [] => none

/-- `<buf>`: `h'<hex digits>'`; `h''` is the empty buffer. -/
def readBuf : Line → Option Buf
  | 'h' :: '\'' :: rest => quotedBytes rest
  | _ => none

/-- `<pb>`: `0x` followed by two hex digits. -/
def readPb : Line → Option Byte
  | ['0', 'x', a, b] => hexByte a b
  | _ => none

/-- The value of a run of decimal digits read after the value `acc`. -/
def decimalValue (acc : Nat) : Line → Option Nat
  | [] => some acc
  | c :: rest => if 48 ≤ c.toNat ∧ c.toNat ≤ 57 then decimalValue (10 * acc + (c.toNat - 48)) rest else none

/-- `<idx>`: a decimal integer `0 ..= 65535`. -/
def readIdx (cs : Line) : Option (BitVec 16) :=
  match cs with
  | [] => none
  | _ :: _ =>
    match decimalValue 0 cs with
    | some n => if n < 65536 then some (BitVec.ofNat 16 n) else none
    | none => none

/-- `<val>`: `0` or `1`. -/
def readVal : Line → Option Bit
  | ['0'] => some false
  | ['1'] => some true
  | _ => none

/-- The text without the spaces before it and after it. -/
def trim (cs : Line) : Line := ((cs.dropWhile (· = ' ')).reverse.dropWhile (· = ' ')).reverse

/-- The text between commas. -/
def splitAtCommas : Line → List Line
  | [] => [[]]
  | c :: rest =>
    if c = ',' then [] :: splitAtCommas rest
    else match splitAtCommas rest with
      | f :: fs => (c :: f) :: fs
      | [] => [[c]]

/-- The mnemonics, upper case (R68). -/
def mnENCODE : Line := ['E', 'N', 'C', 'O', 'D', 'E']
def mnDECODE : Line := ['D', 'E', 'C', 'O', 'D', 'E']
def mnBITGET : Line := ['B', 'I', 'T', 'G', 'E', 'T']
def mnBITSET : Line := ['B', 'I', 'T', 'S', 'E', 'T']
def mnINTERLEAVE : Line := ['I', 'N', 'T', 'E', 'R', 'L', 'E', 'A', 'V', 'E']
def mnEXTRACT : Line := ['E', 'X', 'T', 'R', 'A', 'C', 'T']
def mnLUTRD : Line := ['L', 'U', 'T', 'R', 'D']

/-- The operation of a mnemonic and its operands. -/
def readOperation (mn : Line) (operands : List Line) : Option Instr :=
  match operands with
  | [a] =>
    if mn = mnENCODE then (readBuf a).map .encode
    else if mn = mnEXTRACT then (readBuf a).map .extract
    else if mn = mnLUTRD then (readIdx a).map .lutrd
    else none
  | [a, b] =>
    if mn = mnDECODE then (readPb a).bind (fun pb => (readBuf b).map (.decode pb))
    else if mn = mnINTERLEAVE then (readPb a).bind (fun pb => (readBuf b).map (.interleave pb))
    else if mn = mnBITGET then (readBuf a).bind (fun buf => (readIdx b).map (.bitget buf))
    else none
  | [a, b, c] =>
    if mn = mnBITSET then
      (readBuf a).bind (fun buf => (readIdx b).bind (fun idx => (readVal c).map (.bitset buf idx)))
    else none
  | _ => none

/-- The operation a line asks for: the mnemonic up to the first space, then operands separated by commas. -/
def readLine (line : Line) : Option Instr :=
  readOperation ((trim line).takeWhile (· ≠ ' '))
    ((splitAtCommas ((trim line).dropWhile (· ≠ ' '))).map trim)

/-- The request of a line: its `op` value plus the named fields, the others 0 (R68). -/
def assemble (line : Line) : Option Request := (readLine line).map encode

/-! ### Writing -/

/-- The hex digit of a value below 16. -/
def hexChar (n : Nat) : Char := if n < 10 then Char.ofNat (48 + n) else Char.ofNat (87 + n)

/-- A byte as two hex digits. -/
def writeByte (b : Byte) : Line := [hexChar (b.toNat / 16), hexChar (b.toNat % 16)]

/-- `<buf>` as text. -/
def writeBuf (buf : Buf) : Line := ['h', '\''] ++ buf.flatMap writeByte ++ ['\'']

/-- `<pb>` as text. -/
def writePb (pb : Byte) : Line := ['0', 'x'] ++ writeByte pb

/-- A number below `10 ^ digits` in decimal, without leading zeros. -/
def writeDecimal (digits n : Nat) : Line :=
  match digits with
  | 0 => []
  | d + 1 => if n < 10 then [Char.ofNat (48 + n)] else writeDecimal d (n / 10) ++ [Char.ofNat (48 + n % 10)]

/-- `<idx>` as text; 65535 has five digits. -/
def writeIdx (idx : BitVec 16) : Line := writeDecimal 5 idx.toNat

/-- `<val>` as text. -/
def writeVal (val : Bit) : Line := if val then ['1'] else ['0']

/-- The line of an operation (R68). The reserved operation has no line. -/
def writeLine (i : Instr) : Option Line :=
  match i with
  | .encode buf => some (mnENCODE ++ [' '] ++ writeBuf buf)
  | .decode pb buf => some (mnDECODE ++ [' '] ++ writePb pb ++ [',', ' '] ++ writeBuf buf)
  | .bitget buf idx => some (mnBITGET ++ [' '] ++ writeBuf buf ++ [',', ' '] ++ writeIdx idx)
  | .bitset buf idx val =>
    some (mnBITSET ++ [' '] ++ writeBuf buf ++ [',', ' '] ++ writeIdx idx ++ [',', ' '] ++ writeVal val)
  | .interleave pb buf => some (mnINTERLEAVE ++ [' '] ++ writePb pb ++ [',', ' '] ++ writeBuf buf)
  | .extract buf => some (mnEXTRACT ++ [' '] ++ writeBuf buf)
  | .lutrd idx => some (mnLUTRD ++ [' '] ++ writeIdx idx)
  | .reserved => none

end Sys2Proof.Machine
end

