-- ==== Sys2Proof/Machine/Flip.lean ====
section
/-! DEFINITION. The pseudo-instruction FLIP, which the host expands to two requests (spec/30_encoding.md R70). The
buffer variable is the host's: it is an argument and part of the answer (log entry 14). -/

namespace Sys2Proof.Machine

/-- What the host is left with: its buffer variable and the block. -/
abbrev FlipOutcome := Host.Outcome (Buf × State) Fault Refusal

/-- How many requests the block answers before one presented now: the one in progress and those presented (R46). -/
def State.ahead (s : State) : Nat := s.inProgress.toList.length + s.incoming.length

/-- The host presents one request and waits for its response, which comes after those of the requests ahead of it, one
step each (R28, R46). A request whose buffer is longer than `BUF_MAX_BYTES` is refused like any other (R61). -/
def issue (i : Instr) (s : State) : StepOutcome := Sys2Proof.core.run (s.ahead + 1) (s.present (encode i))

/-- `<bufvar> <- u.buf`: the write-back of a `BITSET` response; an error binds no result, so the variable keeps its
value (R69, R70, R234). -/
def writeBack (buf : Buf) (r : Option Response) : Buf :=
  match r with
  | some (.ok (.bitset out)) => out
  | _ => buf

/-- The second request, with the bit `t` that the first one read inverted, and the write-back. -/
def flipWrite (buf : Buf) (idx : BitVec 16) (t : Bit) (s : State) : FlipOutcome :=
  andThen (issue (.bitset buf idx (!t)) s) fun s' => .next (writeBack buf s'.response, s')

/-- `FLIP <bufvar>, <idx>`: `BITGET`, then `BITSET` of the inverted bit. "If the BITGET raises an error, the BITSET is
not issued and <bufvar> is unchanged" (R70). -/
def flipBit (buf : Buf) (idx : BitVec 16) (s : State) : FlipOutcome :=
  andThen (issue (.bitget buf idx) s) fun s' =>
    match s'.response with
    | some (.ok (.bitget t)) => flipWrite buf idx t s'
    | _ => .next (buf, s')

end Sys2Proof.Machine
end

