-- ==== Sys2Proof/Safety.lean ====
section
/-! DEFINITION. What a sound state and a sound exchange are, in the terms the statements use (spec/10_state.md R27,
R29; spec/20_memory.md R46; spec/41_lut_interleave.md R123). -/

namespace Sys2Proof.Machine

/-- The response a request gets as the first request after reset. -/
def freshResponse (q : Request) : Option Response :=
  match exec (decode q) State.reset with
  | .next t => t.response
  | _ => none

/-- What holds of every state of a block driven through its interface: a request in progress fits the port and has no
response yet; a pending response is the last completed exchange's; and every completed exchange's response is the one
its request gets right after reset, whatever came before it (R27, R46, R61). -/
structure State.Sound (s : State) : Prop where
  inProgress_fits : ∀ q, s.inProgress = some q → q.fits s.params = true
  inProgress_unanswered : s.inProgress ≠ none → s.response = none
  response_last : ∀ r, s.response = some r → ∃ q, s.history.getLast? = some (q, r)
  history_fits : ∀ x ∈ s.history, x.1.fits s.params = true
  history_fresh : ∀ x ∈ s.history, freshResponse x.1 = some x.2

/-- `P(s)`: the codeword position of check-bit slot `s` (R123). -/
def slotPosition (s : Nat) : Nat := if s = 0 then 0 else 2 ^ (s - 1)

/-- The codeword positions that hold payload bits, in increasing order (R123). -/
def payloadPositions : List Nat := positions.filter (fun i => !isCheckEntry (lut i))

/-- `Q(b)`: the codeword position of payload bit `b`, the inverse of the table (R123). -/
def payloadPosition (b : Nat) : Nat := payloadPositions.getD b 0

/-- `zeros(n)`: the buffer of `n` zero bytes (R14). -/
def zeros (n : Nat) : Buf := List.replicate n 0#8

/-- The bytewise XOR of two buffers of one length (R154). -/
def xorBuf (a b : Buf) : Buf := List.zipWith (· ^^^ ·) a b

end Sys2Proof.Machine
end

