-- ==== Sys2Proof/Certificates/Slice0/Obligations.lean ====
section
/-! DEFINITION. The statements for the provers. `s.respond r` is `s` with the pending response `r` and every other
field as it was (Machine/Ops.lean); a statement whose conclusion is `exec i s = .next (s.respond r)` gives the result
and the frame together. No statement reads `r_index` of `Valid` or `NonRecoverableError`
(spec/93_implementation_defined.md I5).

A statement whose rule the spec marks `[derived: ...]` (R28, R106, R107, R121, R123, R131, R141, R142, R151 to R154,
R171, R172, R175, R177, R179, R180) rests on the spec's own inference and has basis `derived`. So has one that needs a
convention of the model: the queue of presented requests and the sequence of completed pairs (log entry 2), the packed
word (log entries 3, 4), the reset of the interface (log entry 5), the assembly spelling (log entry 13), `FLIP` as a
function of the host (log entry 14), the boundary at which an overlong buffer is refused (log entry 17). -/

open Sys2Proof Sys2Proof.Machine

/-! ### The step and the request interface -/

/-- R63, R28: with a request in progress, a step runs the operation it decodes to and completes the exchange: the
request and the response join the sequence of pairs and nothing is in progress. The sequence kept in the state is the
model's (log entry 2). -/
def Obligations.StepRunsTheDecodedRequest : Prop :=
  ∀ (s t : State) (q : Request) (r : Response), s.inProgress = some q → exec (decode q) s = .next t →
    t.response = some r →
    step s = .next { t with inProgress := none, history := t.history ++ [(q, r)] }

/-- The model's own request word (log entries 3, 4): when the decoder reads an operation from a word, a step of a state
with that word placed runs exactly that operation. -/
def Obligations.PlacedWordRunsNext : Prop :=
  ∀ (s : State) (nbits w : Nat) (i : Instr), decodeTableWord nbits w = some i →
    step (s.withFetchWord nbits w) = completing (exec i (s.withFetchWord nbits w))

/-- R219: with no request in progress and none presented, a step changes nothing. -/
def Obligations.IdleBlockDoesNothing : Prop :=
  ∀ s : State, s.inProgress = none → s.incoming = [] → step s = .next s

/-- R28, R46, R209: in one step an idle block accepts and answers the oldest presented request that fits, in the same
way whatever response, error or not, is pending: with the response the request gets right after reset. The queue and
the kept sequence are the model's (log entry 2). -/
def Obligations.AnyResponseThenNextRequestAccepted : Prop :=
  ∀ (s : State) (p : Option Response) (q : Request) (rest : List Request), s.inProgress = none →
    s.incoming = q :: rest → q.buf.length ≤ s.params.bufMaxBytes →
    ∃ r, freshResponse q = some r ∧
      step { s with response := p } =
        .next { s with incoming := rest, response := some r, history := s.history ++ [(q, r)] }

/-- R61: a presented request whose buffer is longer than `BUF_MAX_BYTES` is refused at the boundary, and
`BUF_MAX_BYTES` is at least 16. That the boundary is the accepting step is the model's (log entry 17). -/
def Obligations.OverlongBufferRefusedAtBoundary : Prop :=
  ∀ (s : State) (q : Request) (rest : List Request), s.inProgress = none → s.incoming = q :: rest →
    s.params.bufMaxBytes < q.buf.length → step s = .refused .bufferTooLong ∧ 16 ≤ s.params.bufMaxBytes

/-- R235: every accepted request gets its one response after finitely many steps: after one step the exchange is
complete and exactly one pair has been added. The number of steps and the sequence are the model's (log entry 2). -/
def Obligations.AcceptedRequestGetsItsOneResponse : Prop :=
  ∀ (s : State) (q : Request), s.inProgress = some q →
    ∃ (t : State) (r : Response), step s = .next t ∧ t.response = some r ∧ t.inProgress = none ∧
      t.history = s.history ++ [(q, r)] ∧ t.incoming = s.incoming

/-- R27: a response depends only on its request: two blocks with the same request in progress, whatever else they hold,
answer alike, and as a block does right after reset. -/
def Obligations.ResponseDependsOnlyOnItsRequest : Prop :=
  ∀ (s t s' t' : State) (q : Request), s.inProgress = some q → t.inProgress = some q →
    step s = .next s' → step t = .next t' → s'.response = t'.response ∧ s'.response = freshResponse q

/-- R46: presented with any sequence of requests that fit, an idle block performs them one at a time in order: after
one step each, the exchanges added are those requests in that order, each with the response it gets right after
reset. The queue and the kept sequence are the model's (log entry 2). -/
def Obligations.RequestsPerformedInOrderEachByItself : Prop :=
  ∀ (s : State), s.inProgress = none → (∀ q ∈ s.incoming, q.fits s.params = true) →
    ∃ (t : State) (added : List (Request × Response)),
      Sys2Proof.core.run s.incoming.length s = .next t ∧ t.incoming = [] ∧ t.inProgress = none ∧
      t.history = s.history ++ added ∧ added.map Prod.fst = s.incoming ∧
      ∀ x ∈ added, freshResponse x.1 = some x.2

/-- The frame of every operation: it changes the pending response and nothing else (R178, R208). -/
def Obligations.OperationsChangeOnlyTheResponse : Prop :=
  ∀ (i : Instr) (s t : State), exec i s = .next t →
    t.params = s.params ∧ t.incoming = s.incoming ∧ t.inProgress = s.inProgress ∧ t.history = s.history ∧
      ∃ r, t.response = some r

/-- R62, R151: a field the operation does not read never changes the response. Each clause names the fields read; the
other fields differ at will. -/
def Obligations.UnreadFieldsNeverMatter : Prop :=
  ∀ (q r : Request) (s : State), q.op = r.op →
    (q.op = 0b000#3 → q.buf = r.buf → exec (decode q) s = exec (decode r) s) ∧
    (q.op = 0b001#3 → q.pb = r.pb → q.buf = r.buf → exec (decode q) s = exec (decode r) s) ∧
    (q.op = 0b010#3 → q.buf = r.buf → q.idx = r.idx → exec (decode q) s = exec (decode r) s) ∧
    (q.op = 0b011#3 → q.buf = r.buf → q.idx = r.idx → q.val = r.val → exec (decode q) s = exec (decode r) s) ∧
    (q.op = 0b100#3 → q.pb = r.pb → q.buf = r.buf → exec (decode q) s = exec (decode r) s) ∧
    (q.op = 0b101#3 → q.buf = r.buf → exec (decode q) s = exec (decode r) s) ∧
    (q.op = 0b110#3 → q.idx = r.idx → exec (decode q) s = exec (decode r) s) ∧
    (q.op = 0b111#3 → exec (decode q) s = exec (decode r) s)

/-! ### Reset -/

/-- R29, R230: right after reset no request is in progress, no response is pending, and a presented request that fits
is accepted and answered by the next step. The queue and the kept sequence are the model's (log entry 2). -/
def Obligations.ResetBlockIsIdleAndAccepts : Prop :=
  State.reset.inProgress = none ∧ State.reset.response = none ∧
    ∀ q : Request, q.buf.length ≤ State.reset.params.bufMaxBytes →
      ∃ r, freshResponse q = some r ∧
        step (State.reset.present q) = .next { State.reset with response := some r, history := [(q, r)] }

/-- R231: a request in progress when reset comes is abandoned without a response; presented again, it gets the response
it would have had. What the host's side of the interface keeps over a reset is the model's (log entry 5). -/
def Obligations.ResetAbandonsTheRequestInProgress : Prop :=
  ∀ (s u : State) (q : Request), s.inProgress = some q → q.buf.length ≤ s.params.bufMaxBytes →
    step s = .next u →
    s.hostReset.inProgress = none ∧ s.hostReset.response = none ∧ s.hostReset.history = s.history ∧
      ∃ t, step (s.hostReset.present q) = .next t ∧ t.response = u.response ∧ t.history = u.history

/-- The invariant `State.Sound` holds at reset. -/
def Obligations.ResetIsSound : Prop := State.reset.Sound

/-- Every step keeps `State.Sound`: among other things, every completed exchange's response is the one its request gets
right after reset (R27, R46). -/
def Obligations.StepKeepsSound : Prop :=
  ∀ s s' : State, s.Sound → step s = .next s' → s'.Sound

/-- What the host may do to a block, presenting a request or resetting it, keeps `State.Sound` (R213, R231; the reset of
the interface is log entry 5's). -/
def Obligations.HostActionsKeepSound : Prop :=
  ∀ (s : State) (q : Request), s.Sound → (s.present q).Sound ∧ s.hostReset.Sound

/-! ### Encoding -/

/-- R63, R66: every value of `op` selects its row, by `op` alone. -/
def Obligations.OpSelectsTheOperation : Prop :=
  ∀ (pb : Byte) (idx : BitVec 16) (val : Bit) (buf : Buf),
    decode ⟨0b000#3, pb, idx, val, buf⟩ = .encode buf ∧ decode ⟨0b001#3, pb, idx, val, buf⟩ = .decode pb buf ∧
    decode ⟨0b010#3, pb, idx, val, buf⟩ = .bitget buf idx ∧ decode ⟨0b011#3, pb, idx, val, buf⟩ = .bitset buf idx val ∧
    decode ⟨0b100#3, pb, idx, val, buf⟩ = .interleave pb buf ∧ decode ⟨0b101#3, pb, idx, val, buf⟩ = .extract buf ∧
    decode ⟨0b110#3, pb, idx, val, buf⟩ = .lutrd idx ∧ decode ⟨0b111#3, pb, idx, val, buf⟩ = .reserved

/-- R60, R63 and the model's packing (log entry 4): a few words written out bit by bit, `val`, `idx`, `pb` and `op` from
the most significant bit down, with their buffers, and the operations they stand for. The requests are those of
spec/95_test_vectors.md P1 and P5. -/
def Obligations.WrittenOutWordsDecode : Prop :=
  decodeHead 0b0000000000000000000000000000 [0x68#8] = .ok (.encode [0x68#8]) ∧
  decodeHead 0b0000000000000000011100101001 [0x68#8] = .ok (.decode 0xE5#8 [0x68#8]) ∧
  decodeHead 0b0000000000000011100000000010 [0x68#8] = .ok (.bitget [0x68#8] 7#16) ∧
  decodeHead 0b1000000000000011100000000011 [0x68#8] = .ok (.bitset [0x68#8] 7#16 true) ∧
  decodeHead 0b0000000000000000011100101100 [0x68#8] = .ok (.interleave 0xE5#8 [0x68#8]) ∧
  decodeHead 0b0000000000000000000000000101 [0xe6#8] = .ok (.extract [0xe6#8]) ∧
  decodeHead 0b0000000001100100000000000110 [] = .ok (.lutrd 200#16) ∧
  decodeHead 0b0000000000000000000000000111 [] = .ok .reserved ∧
  decodeHead 0b10000000000000000000000000000 [] = .error .strayHeadBits

/-- Decode and encode agree through the packed word of the fixed fields (log entry 4): every operation, with every
operand, decodes from its own word and buffer; packing loses no field; and every 28-bit word is some request's. -/
def Obligations.DecodeInvertsEncode : Prop :=
  (∀ i : Instr, decodeHead (encode i).head.toNat (encode i).buf = .ok i) ∧
  (∀ q : Request, Request.ofHead q.head q.buf = q) ∧
  (∀ (w : Nat) (buf : Buf), w < 2 ^ 28 → (Request.ofHead (BitVec.ofNat 28 w) buf).head.toNat = w)

/-- R68 with the model's spacing (log entry 13): the line written for an operation reads back as the request with its
`op` value and the named fields, the others 0; only the reserved operation has no line. -/
def Obligations.AssemblyLineReadsBack : Prop :=
  ∀ i : Instr, (writeLine i = none ↔ i = .reserved) ∧ ∀ line, writeLine i = some line → assemble line = some (encode i)

/-! ### Errors -/

/-- R200: the status of a response is 0 exactly for a result, each error has its own number, and the reserved numbers 6
and 7 are never produced. -/
def Obligations.StatusCodesAsNumbered : Prop :=
  (∀ e : ErrorCode, (Response.error e).status = match e with
    | .invalidPayloadSize => 1#3
    | .invalidDataSize => 2#3
    | .illegalOperation => 3#3
    | .bitIndexOutOfRange => 4#3
    | .lutIndexOutOfRange => 5#3) ∧
  ∀ (i : Instr) (s t : State) (r : Response), exec i s = .next t → t.response = some r →
    r.status.toNat ≤ 5 ∧ (r.status = 0#3 ↔ ∃ x, r = .ok x)

/-- R200, R207: which operation raises which error: an error answered by an operation is the one of its own check, and
`IllegalOperation` comes from the reserved operation alone. -/
def Obligations.EachOperationRaisesOnlyItsOwnError : Prop :=
  ∀ (i : Instr) (s t : State) (e : ErrorCode), exec i s = .next t → t.response = some (.error e) →
    match i with
    | .encode buf => e = .invalidPayloadSize ∧ buf.length ≠ 15
    | .decode _ buf => e = .invalidPayloadSize ∧ buf.length ≠ 15
    | .bitget buf idx => e = .bitIndexOutOfRange ∧ 8 * buf.length ≤ idx.toNat
    | .bitset buf idx _ => e = .bitIndexOutOfRange ∧ 8 * buf.length ≤ idx.toNat
    | .interleave _ buf => e = .invalidPayloadSize ∧ buf.length ≠ 15
    | .extract buf => e = .invalidDataSize ∧ buf.length ≠ 16
    | .lutrd idx => e = .lutIndexOutOfRange ∧ 128 ≤ idx.toNat
    | .reserved => e = .illegalOperation

/-- R201, R175: a payload of any length other than 15 bytes ends `ENCODE`, `DECODE` and `INTERLEAVE` with
`InvalidPayloadSize`, code 1, and nothing else happens. -/
def Obligations.WrongPayloadLengthIsAnError : Prop :=
  ∀ (pb : Byte) (buf : Buf) (s : State), buf.length ≠ 15 →
    exec (.encode buf) s = .next (s.respond (.error .invalidPayloadSize)) ∧
    exec (.decode pb buf) s = .next (s.respond (.error .invalidPayloadSize)) ∧
    exec (.interleave pb buf) s = .next (s.respond (.error .invalidPayloadSize)) ∧
    (Response.error .invalidPayloadSize).status = 1#3

/-- R202, R155: a codeword of any length other than 16 bytes ends `EXTRACT` with `InvalidDataSize`, code 2, and
`ENCODE` never raises that error. -/
def Obligations.WrongCodewordLengthIsAnError : Prop :=
  (∀ (buf : Buf) (s : State), buf.length ≠ 16 →
    exec (.extract buf) s = .next (s.respond (.error .invalidDataSize)) ∧
    (Response.error .invalidDataSize).status = 2#3) ∧
  ∀ (buf : Buf) (s t : State), exec (.encode buf) s = .next t → t.response ≠ some (.error .invalidDataSize)

/-- R203: an index at or past `8 * len(buf)` ends `BITGET` and `BITSET` with `BitIndexOutOfRange`, code 4. -/
def Obligations.BitIndexPastTheEndIsAnError : Prop :=
  ∀ (buf : Buf) (idx : BitVec 16) (val : Bit) (s : State), 8 * buf.length ≤ idx.toNat →
    exec (.bitget buf idx) s = .next (s.respond (.error .bitIndexOutOfRange)) ∧
    exec (.bitset buf idx val) s = .next (s.respond (.error .bitIndexOutOfRange)) ∧
    (Response.error .bitIndexOutOfRange).status = 4#3

/-- R205: an index at or past 128 ends `LUTRD` with `LutIndexOutOfRange`, code 5. -/
def Obligations.LutIndexPastTheEndIsAnError : Prop :=
  ∀ (idx : BitVec 16) (s : State), 128 ≤ idx.toNat →
    exec (.lutrd idx) s = .next (s.respond (.error .lutIndexOutOfRange)) ∧
    (Response.error .lutIndexOutOfRange).status = 5#3

/-- R204: a request with `op = 111`, whatever its operands, is answered with `IllegalOperation`, code 3. -/
def Obligations.ReservedOperationIsIllegal : Prop :=
  ∀ (q : Request) (s : State), q.op = 0b111#3 →
    decode q = .reserved ∧ exec .reserved s = .next (s.respond (.error .illegalOperation)) ∧
    (Response.error .illegalOperation).status = 3#3

/-! ### BITGET and BITSET -/

/-- R100: `BITGET` is `op = 010` over `buf` and `idx` alone; inside the buffer it answers
`(buf[k div 8] >> (7 - (k mod 8))) & 1`, at or past the end `BitIndexOutOfRange`. -/
def Obligations.BitgetReadsTheIndexedBit : Prop :=
  ∀ (q : Request) (s : State), q.op = 0b010#3 →
    decode q = .bitget q.buf q.idx ∧
    (∀ h : q.idx.toNat / 8 < q.buf.length, ∃ b : Bit,
      exec (.bitget q.buf q.idx) s = .next (s.respond (.ok (.bitget b))) ∧
      (if b then 1#8 else 0#8) = (q.buf[q.idx.toNat / 8] >>> (7 - q.idx.toNat % 8)) &&& 1#8) ∧
    (8 * q.buf.length ≤ q.idx.toNat →
      exec (.bitget q.buf q.idx) s = .next (s.respond (.error .bitIndexOutOfRange)))

/-- R104: `BITSET` is `op = 011` over `buf`, `idx` and `val` alone; inside the buffer it answers the copy whose byte
`k div 8` is `(buf[k div 8] AND NOT m) OR (m if val = 1 else 0)` with `m = 0x80 >> (k mod 8)`, at or past the end
`BitIndexOutOfRange`. -/
def Obligations.BitsetWritesTheIndexedBit : Prop :=
  ∀ (q : Request) (s : State), q.op = 0b011#3 →
    decode q = .bitset q.buf q.idx q.val ∧
    (∀ h : q.idx.toNat / 8 < q.buf.length,
      exec (.bitset q.buf q.idx q.val) s = .next (s.respond (.ok (.bitset (q.buf.set (q.idx.toNat / 8)
        ((q.buf[q.idx.toNat / 8] &&& (~~~(0x80#8 >>> (q.idx.toNat % 8)) &&& 0xFF#8)) |||
          (if q.val then 0x80#8 >>> (q.idx.toNat % 8) else 0#8))))))) ∧
    (8 * q.buf.length ≤ q.idx.toNat →
      exec (.bitset q.buf q.idx q.val) s = .next (s.respond (.error .bitIndexOutOfRange)))

/-- R106: `BITSET` keeps the length and every bit but the one, which becomes `val`; writing the value a bit has leaves
the buffer as it was. -/
def Obligations.BitsetKeepsEverythingElse : Prop :=
  ∀ (buf : Buf) (idx : BitVec 16) (val : Bit) (s : State), idx.toNat < 8 * buf.length →
    ∃ out : Buf, exec (.bitset buf idx val) s = .next (s.respond (.ok (.bitset out))) ∧
      out.length = buf.length ∧ (∀ j, j ≠ idx.toNat → getBit out j = getBit buf j) ∧ getBit out idx.toNat = val ∧
      (val = getBit buf idx.toNat → out = buf)

/-- R107: `BITSET` followed by `BITGET` at the same index returns `val`, and two `BITSET`s at different indices
commute. -/
def Obligations.BitsetThenBitgetAndBitsetsCommute : Prop :=
  ∀ (buf : Buf) (i j : BitVec 16) (v w : Bit) (s : State), i.toNat < 8 * buf.length → j.toNat < 8 * buf.length →
    ∃ bi bj out : Buf, exec (.bitset buf i v) s = .next (s.respond (.ok (.bitset bi))) ∧
      exec (.bitset buf j w) s = .next (s.respond (.ok (.bitset bj))) ∧
      exec (.bitget bi i) s = .next (s.respond (.ok (.bitget v))) ∧
      (i ≠ j → exec (.bitset bi j w) s = .next (s.respond (.ok (.bitset out))) ∧
        exec (.bitset bj i v) s = .next (s.respond (.ok (.bitset out))))

/-- R70, R61: on a block with nothing in progress `FLIP` inverts one bit of the host's buffer through the block; with
the index out of range the `BITSET` is not issued and the buffer is unchanged. Requests presented before are answered
first. Two exchanges are added in the one case and one in the other. A buffer longer than `BUF_MAX_BYTES` is refused at
the boundary. `FLIP` as a function of the host's buffer and the block is the model's (log entry 14). -/
def Obligations.FlipInvertsOneBit : Prop :=
  ∀ (buf : Buf) (idx : BitVec 16) (s : State), s.inProgress = none → (∀ q ∈ s.incoming, q.fits s.params = true) →
    (buf.length ≤ s.params.bufMaxBytes → idx.toNat < 8 * buf.length →
      ∃ (out : Buf) (t : State), flipBit buf idx s = .next (out, t) ∧ t.inProgress = none ∧ t.incoming = [] ∧
      out.length = buf.length ∧ (∀ j, j ≠ idx.toNat → getBit out j = getBit buf j) ∧
      getBit out idx.toNat = !getBit buf idx.toNat ∧
      t.history.map Prod.fst = s.history.map Prod.fst ++ s.incoming ++
        [encode (.bitget buf idx), encode (.bitset buf idx (!getBit buf idx.toNat))]) ∧
    (buf.length ≤ s.params.bufMaxBytes → 8 * buf.length ≤ idx.toNat →
      ∃ t : State, flipBit buf idx s = .next (buf, t) ∧ t.inProgress = none ∧ t.incoming = [] ∧
      t.response = some (.error .bitIndexOutOfRange) ∧
      t.history.map Prod.fst = s.history.map Prod.fst ++ s.incoming ++ [encode (.bitget buf idx)]) ∧
    (s.params.bufMaxBytes < buf.length → flipBit buf idx s = .refused .bufferTooLong)

/-! ### The lookup table, INTERLEAVE and EXTRACT -/

/-- R124 with the table of R120, in whose third case the powers of two are counted from `2^0`, the spec's inference in
R121: `LUTRD` is `op = 110` over `idx` alone; of an index below 128 it answers the entry as a two's complement byte,
whether it names a check-bit slot, and which slot or payload bit; of any other index it answers
`LutIndexOutOfRange`. -/
def Obligations.LutrdAnswersTheEntry : Prop :=
  (∀ q : Request, q.op = 0b110#3 → decode q = .lutrd q.idx) ∧
  (∀ (idx : BitVec 16) (s : State), 128 ≤ idx.toNat →
    exec (.lutrd idx) s = .next (s.respond (.error .lutIndexOutOfRange))) ∧
  ∀ (idx : BitVec 16) (s : State), idx.toNat < 128 →
    ∃ e : Int, exec (.lutrd idx) s = .next (s.respond (.ok (.lutrd (BitVec.ofInt 8 e) (decide (e < 0))
        (BitVec.ofInt 7 (if e < 0 then e + 100 else e))))) ∧
      (idx.toNat = 0 → e = -100) ∧
      (∀ p : Nat, idx.toNat = 2 ^ p → e = p + 1 - 100) ∧
      (idx.toNat ≠ 0 → (∀ p : Nat, idx.toNat ≠ 2 ^ p) →
        e = idx.toNat - (List.range 7).countP (fun p => decide (2 ^ p ≤ idx.toNat)) - 1)

/-- R123: exactly eight entries are negative, at 0 and the powers of two, and name the slots 0 to 7 one to one; the
other 120 map in increasing order onto the payload bits 0 to 119; `P` and `Q` are the inverse maps. -/
def Obligations.TableMapsSlotsAndPayloadBitsOneToOne : Prop :=
  (∀ i < 128, lut i < 0 ↔ i ∈ [0, 1, 2, 4, 8, 16, 32, 64]) ∧
  (∀ s < 8, slotPosition s < 128 ∧ lut (slotPosition s) = s - 100) ∧
  (∀ i < 128, lut i < 0 → slotPosition (lut i + 100).toNat = i) ∧
  (∀ b < 120, payloadPosition b < 128 ∧ lut (payloadPosition b) = b) ∧
  (∀ i < 128, 0 ≤ lut i → payloadPosition (lut i).toNat = i) ∧
  (∀ a b, a < b → b < 120 → payloadPosition a < payloadPosition b)

/-- R131: `INTERLEAVE` of a 15-byte payload answers the 16-byte codeword with slot `s` at `P(s)` and payload bit `b` at
`Q(b)`; its bytes 9 to 15 are the payload's bytes 8 to 14; and the order of the loop's positions does not matter. -/
def Obligations.InterleavePlacesEveryBit : Prop :=
  ∀ (pb : Byte) (buf : Buf) (s : State), buf.length = 15 →
    ∃ out : Buf, exec (.interleave pb buf) s = .next (s.respond (.ok (.interleave out))) ∧ out.length = 16 ∧
      (∀ k < 8, getBit out (slotPosition k) = (pb >>> (7 - k)).getLsbD 0) ∧
      (∀ b < 120, getBit out (payloadPosition b) = getBit buf b) ∧
      (∀ j, 9 ≤ j → j ≤ 15 → out[j]? = buf[j - 1]?) ∧
      (∀ order : List Nat, order.Perm (List.range 128) →
        codewordBytes (order.foldl (fun cw i => withBit cw i (codewordBit pb buf i)) 0#128) = out)

/-- R141: `EXTRACT` of a 16-byte codeword answers the OR over the slots of the bit at `P(s)` shifted left by `7 - s`;
it reads no other position, and the initial value of the loop's byte does not matter. -/
def Obligations.ExtractReadsTheEightSlots : Prop :=
  ∀ (buf : Buf) (s : State), buf.length = 16 →
    ∃ pb : Byte, exec (.extract buf) s = .next (s.respond (.ok (.extract pb))) ∧
      pb = (List.range 8).foldl (fun acc k => acc ||| ((if getBit buf (slotPosition k) then 1#8 else 0#8) <<< (7 - k))) 0#8 ∧
      (∀ other : Buf, other.length = 16 →
        (∀ i ∈ [0, 1, 2, 4, 8, 16, 32, 64], getBit other i = getBit buf i) →
        exec (.extract other) s = .next (s.respond (.ok (.extract pb)))) ∧
      (∀ p0 : Byte, positions.foldl (extractStep buf) p0 = pb)

/-- R142: `EXTRACT` inverts `INTERLEAVE` on the ParityByte. -/
def Obligations.ExtractInvertsInterleave : Prop :=
  ∀ (pb : Byte) (d : Buf) (s : State), d.length = 15 →
    ∃ cw : Buf, exec (.interleave pb d) s = .next (s.respond (.ok (.interleave cw))) ∧
      exec (.extract cw) s = .next (s.respond (.ok (.extract pb)))

/-! ### ENCODE -/

/-- R152, R153: `ENCODE` of a 15-byte payload answers the ParityByte whose slot `p+1` is the XOR of the payload bits at
positions with bit `p`, and whose slot 0 is the XOR of all payload bits and all other slots; the order of the Hamming
loop does not matter; and the codeword of payload and ParityByte has even weight. -/
def Obligations.EncodeComputesTheCheckBits : Prop :=
  ∀ (buf : Buf) (s : State), buf.length = 15 →
    ∃ (pb : Byte) (cw : Buf), exec (.encode buf) s = .next (s.respond (.ok (.encode pb))) ∧
      (∀ p < 7, getBit [pb] (p + 1) =
        xorOver ((List.range 120).filter (fun b => payloadPosition b &&& (1 <<< p) ≠ 0)) (getBit buf)) ∧
      getBit [pb] 0 = xor (xorOver (List.range 120) (getBit buf)) (xorOver [1, 2, 3, 4, 5, 6, 7] (getBit [pb])) ∧
      (∀ order : List Nat, order.Perm (List.range 7) →
        order.foldl writeHammingBit (interleaveBits 0#8 buf) = writeHammingBits (interleaveBits 0#8 buf)) ∧
      exec (.interleave pb buf) s = .next (s.respond (.ok (.interleave cw))) ∧
      (List.range 128).countP (fun i => getBit cw i) % 2 = 0

/-- R154: `ENCODE` is linear over XOR and sends the zero payload to 0. -/
def Obligations.EncodeIsLinear : Prop :=
  (∀ (a b : Buf) (s : State), a.length = 15 → b.length = 15 →
    ∃ pa pb : Byte, exec (.encode a) s = .next (s.respond (.ok (.encode pa))) ∧
      exec (.encode b) s = .next (s.respond (.ok (.encode pb))) ∧
      exec (.encode (xorBuf a b)) s = .next (s.respond (.ok (.encode (pa ^^^ pb))))) ∧
  ∀ s : State, exec (.encode (zeros 15)) s = .next (s.respond (.ok (.encode 0#8)))

/-- R154: the payload whose only set bit is `b` has the ParityByte with slot `p+1` set for each bit `p` of `Q(b)` and
slot 0 set when the number of bits of `Q(b)` is even. -/
def Obligations.EncodeOfASingleBit : Prop :=
  ∀ (b : Nat) (s : State), b < 120 →
    ∃ g : Byte, exec (.encode (setBit (zeros 15) b true)) s = .next (s.respond (.ok (.encode g))) ∧
      (∀ p < 7, getBit [g] (p + 1) = (payloadPosition b).testBit p) ∧
      getBit [g] 0 = decide ((List.range 7).countP (fun p => (payloadPosition b).testBit p) % 2 = 0)

/-! ### DECODE -/

/-- R171, R172: `DECODE` of a 15-byte payload answers as `r_syn` the XOR of every codeword position in `[1, 128)` whose
bit is 1, and as `r_ovp` the parity of the weight of the whole codeword, which is `INTERLEAVE`'s. -/
def Obligations.DecodeReportsSyndromeAndParity : Prop :=
  ∀ (pb : Byte) (buf : Buf) (s : State), buf.length = 15 →
    ∃ (cw : Buf) (cls : Classification) (idx syn : BitVec 7) (ovp : Bit),
      exec (.interleave pb buf) s = .next (s.respond (.ok (.interleave cw))) ∧
      exec (.decode pb buf) s = .next (s.respond (.ok (.decode cls idx syn ovp))) ∧
      syn.toNat = ((List.range' 1 127).filter (fun i => getBit cw i)).foldl (fun acc i => acc ^^^ i) 0 ∧
      ovp = decide ((List.range 128).countP (fun i => getBit cw i) % 2 = 1)

/-- R173 without the `r_index` of `Valid` and `NonRecoverableError`, which no claim may read (I5): the classification is
decided by syndrome and overall parity, and a recoverable error's index is the table's. -/
def Obligations.DecodeClassifiesBySyndromeAndParity : Prop :=
  ∀ (pb : Byte) (buf : Buf) (s : State), buf.length = 15 →
    ∃ (cls : Classification) (idx syn : BitVec 7) (ovp : Bit),
      exec (.decode pb buf) s = .next (s.respond (.ok (.decode cls idx syn ovp))) ∧
      (syn = 0#7 → ovp = false → cls = .valid) ∧
      (syn ≠ 0#7 → ovp = true → lut syn.toNat < 0 →
        cls = .recoverableErrorInParity ∧ (idx.toNat : Int) = lut syn.toNat + 100) ∧
      (syn ≠ 0#7 → ovp = true → 0 ≤ lut syn.toNat →
        cls = .recoverableErrorInData ∧ (idx.toNat : Int) = lut syn.toNat) ∧
      (syn = 0#7 → ovp = true → cls = .nonRecoverableError) ∧
      (syn ≠ 0#7 → ovp = false → cls = .nonRecoverableError)

/-- R177: a data index is at most 119; a parity index is 1 to 7, never 0, and comes of a syndrome that is the power of
two of its slot. -/
def Obligations.DecodeIndexRanges : Prop :=
  ∀ (pb : Byte) (buf : Buf) (s t : State) (cls : Classification) (idx syn : BitVec 7) (ovp : Bit),
    exec (.decode pb buf) s = .next t → t.response = some (.ok (.decode cls idx syn ovp)) →
    (cls = .recoverableErrorInData → idx.toNat ≤ 119) ∧
    (cls = .recoverableErrorInParity → 1 ≤ idx.toNat ∧ idx.toNat ≤ 7 ∧ syn.toNat = 2 ^ (idx.toNat - 1))

/-- R178, R206: `DECODE` of a 15-byte payload never raises an error, whatever the classification: the status is `OK`
and nothing but the response changes. -/
def Obligations.DecodeNeverRaisesForAClassification : Prop :=
  ∀ (pb : Byte) (buf : Buf) (s : State), buf.length = 15 →
    ∃ (cls : Classification) (idx syn : BitVec 7) (ovp : Bit),
      exec (.decode pb buf) s = .next { s with response := some (.ok (.decode cls idx syn ovp)) } ∧
      (Response.ok (.decode cls idx syn ovp)).status = 0#3

/-- R65: every 2-bit code of `r_class` is used, by one classification each, with the numbers of the table. -/
def Obligations.ClassCodesAsNumbered : Prop :=
  Classification.valid.code = 0b00#2 ∧ Classification.recoverableErrorInData.code = 0b01#2 ∧
  Classification.recoverableErrorInParity.code = 0b10#2 ∧ Classification.nonRecoverableError.code = 0b11#2 ∧
  ∀ c : BitVec 2, ∃ cls : Classification, cls.code = c ∧ ∀ other : Classification, other.code = c → other = cls

/-- R180, first case: a payload with its own ParityByte is `Valid`, with syndrome 0 and overall parity 0. -/
def Obligations.EncodeThenDecodeIsValid : Prop :=
  ∀ (d : Buf) (s : State), d.length = 15 →
    ∃ (pb : Byte) (idx : BitVec 7), exec (.encode d) s = .next (s.respond (.ok (.encode pb))) ∧
      exec (.decode pb d) s = .next (s.respond (.ok (.decode .valid idx 0#7 false)))

/-- R180, second case: with payload bit `b` flipped, `DECODE` answers `RecoverableErrorInData(b)` with syndrome `Q(b)`
and overall parity 1. -/
def Obligations.OneDataFlipIsLocated : Prop :=
  ∀ (d : Buf) (b : Nat) (s : State), d.length = 15 → b < 120 →
    ∃ pb : Byte, exec (.encode d) s = .next (s.respond (.ok (.encode pb))) ∧
      exec (.decode pb (setBit d b (!getBit d b))) s = .next (s.respond (.ok
        (.decode .recoverableErrorInData (BitVec.ofNat 7 b) (BitVec.ofNat 7 (payloadPosition b)) true)))

/-- R180, third case: with check bit `k` of 1 to 7 flipped, `DECODE` answers `RecoverableErrorInParity(k)` with
syndrome `2^(k-1)` and overall parity 1. -/
def Obligations.OneCheckFlipIsLocated : Prop :=
  ∀ (d : Buf) (k : Nat) (s : State), d.length = 15 → 1 ≤ k → k ≤ 7 →
    ∃ pb : Byte, exec (.encode d) s = .next (s.respond (.ok (.encode pb))) ∧
      exec (.decode (pb ^^^ (0x80#8 >>> k)) d) s = .next (s.respond (.ok
        (.decode .recoverableErrorInParity (BitVec.ofNat 7 k) (BitVec.ofNat 7 (2 ^ (k - 1))) true)))

/-- R174 and the fourth case of R180: syndrome 0 with overall parity 1 is `NonRecoverableError`; this includes a payload
and ParityByte that differ from a valid pair only in slot 0. -/
def Obligations.OverallParityFlipIsNonRecoverable : Prop :=
  (∀ (pb : Byte) (buf : Buf) (s t : State) (cls : Classification) (idx : BitVec 7),
    exec (.decode pb buf) s = .next t → t.response = some (.ok (.decode cls idx 0#7 true)) →
    cls = .nonRecoverableError) ∧
  ∀ (d : Buf) (s : State), d.length = 15 →
    ∃ (pb : Byte) (idx : BitVec 7), exec (.encode d) s = .next (s.respond (.ok (.encode pb))) ∧
      exec (.decode (pb ^^^ 0x80#8) d) s = .next (s.respond (.ok (.decode .nonRecoverableError idx 0#7 true)))

/-- R180, fifth case: with any two distinct codeword positions flipped, of payload bits or check bits, `DECODE` answers
`NonRecoverableError` with syndrome `a XOR b` and overall parity 0. The flips are those of the codewords'
`INTERLEAVE`. -/
def Obligations.EveryDoubleFlipIsNonRecoverable : Prop :=
  ∀ (d d' : Buf) (pb pb' : Byte) (cw cw' : Buf) (a b : Nat) (s : State), d.length = 15 → d'.length = 15 →
    exec (.encode d) s = .next (s.respond (.ok (.encode pb))) →
    exec (.interleave pb d) s = .next (s.respond (.ok (.interleave cw))) →
    exec (.interleave pb' d') s = .next (s.respond (.ok (.interleave cw'))) →
    a < 128 → b < 128 → a ≠ b →
    (∀ i < 128, (getBit cw' i ≠ getBit cw i) ↔ (i = a ∨ i = b)) →
    ∃ idx : BitVec 7, exec (.decode pb' d') s = .next (s.respond (.ok
      (.decode .nonRecoverableError idx (BitVec.ofNat 7 (a ^^^ b)) false)))

/-- R179: let a stored pair from `ENCODE` be changed to any other pair, and let `E` be the codeword positions where the
two `INTERLEAVE`s differ. Then the syndrome is the XOR of the positions of `E` from 1 on, and the overall parity is the
parity of the size of `E`. -/
def Obligations.SyndromeAndParityOfTheErrorVector : Prop :=
  ∀ (d d' : Buf) (pb pb' : Byte) (cw cw' : Buf) (s : State), d.length = 15 → d'.length = 15 →
    exec (.encode d) s = .next (s.respond (.ok (.encode pb))) →
    exec (.interleave pb d) s = .next (s.respond (.ok (.interleave cw))) →
    exec (.interleave pb' d') s = .next (s.respond (.ok (.interleave cw'))) →
    ∃ (cls : Classification) (idx syn : BitVec 7) (ovp : Bit),
      exec (.decode pb' d') s = .next (s.respond (.ok (.decode cls idx syn ovp))) ∧
      syn.toNat = ((List.range' 1 127).filter (fun i => getBit cw' i != getBit cw i)).foldl (fun acc i => acc ^^^ i) 0 ∧
      ovp = decide (((List.range 128).filter (fun i => getBit cw' i != getBit cw i)).length % 2 = 1)

/-- R180, sixth case: an odd number of flips with a nonzero syndrome is classed recoverable at position `syn`, and an
even number is `NonRecoverableError`, or `Valid` if the syndrome is 0. -/
def Obligations.ManyFlipsAreClassedByTheirSums : Prop :=
  ∀ (d d' : Buf) (pb pb' : Byte) (cw cw' : Buf) (s : State), d.length = 15 → d'.length = 15 →
    exec (.encode d) s = .next (s.respond (.ok (.encode pb))) →
    exec (.interleave pb d) s = .next (s.respond (.ok (.interleave cw))) →
    exec (.interleave pb' d') s = .next (s.respond (.ok (.interleave cw'))) →
    ∃ (n : Nat) (cls : Classification) (idx syn : BitVec 7) (ovp : Bit),
      n = (List.range 128).countP (fun i => getBit cw' i != getBit cw i) ∧
      exec (.decode pb' d') s = .next (s.respond (.ok (.decode cls idx syn ovp))) ∧
      (n % 2 = 1 → syn ≠ 0#7 →
        (cls = .recoverableErrorInData ∧ payloadPosition idx.toNat = syn.toNat) ∨
        (cls = .recoverableErrorInParity ∧ slotPosition idx.toNat = syn.toNat)) ∧
      (n % 2 = 0 → syn ≠ 0#7 → cls = .nonRecoverableError) ∧
      (n % 2 = 0 → syn = 0#7 → cls = .valid)

/-! ### One step, one exchange -/

/-- R28: the block's state is the unit type, and one step is one request mapped to one response. Whatever the state, a
step that answers a next state either had no request and changed nothing, or took exactly one request, the one in
progress or else the oldest presented, and gave it the response it gets right after reset, changing nothing of the
rest. The queue and the kept sequence are the model's (log entry 2). -/
def Obligations.OneStepMapsOneRequestToOneResponse : Prop :=
  (∀ a b : Block, a = b) ∧
  ∀ s s' : State, step s = .next s' →
    (s.inProgress = none ∧ s.incoming = [] ∧ s' = s) ∨
    ∃ (q : Request) (r : Response), s.inProgress.toList ++ s.incoming = q :: s'.incoming ∧
      freshResponse q = some r ∧ s'.response = some r ∧ s'.inProgress = none ∧
      s'.history = s.history ++ [(q, r)] ∧ s'.params = s.params
end

