-- ==== Sys2Proof/Laws/State.lean ====
section
/-! SUPPORT. What each update of the state does to each field, by definition. -/

namespace Sys2Proof.Machine

/-- The block's own state is the unit type: any two are equal (R28). -/
theorem block_unit (a b : Block) : a = b := rfl

section Respond
variable (r : Response) (s : State)
@[simp] theorem respond_params : (s.respond r).params = s.params := rfl
@[simp] theorem respond_incoming : (s.respond r).incoming = s.incoming := rfl
@[simp] theorem respond_inProgress : (s.respond r).inProgress = s.inProgress := rfl
@[simp] theorem respond_response : (s.respond r).response = some r := rfl
@[simp] theorem respond_history : (s.respond r).history = s.history := rfl
end Respond

/-- Raising an error is giving a response that carries only the status (R208). -/
theorem raise_eq_respond (e : ErrorCode) (s : State) : s.raise e = s.respond (.error e) := rfl

section Accept
variable (q : Request) (s : State)
@[simp] theorem accept_params : (s.accept q).params = s.params := rfl
@[simp] theorem accept_incoming : (s.accept q).incoming = s.incoming := rfl
@[simp] theorem accept_inProgress : (s.accept q).inProgress = some q := rfl
@[simp] theorem accept_response : (s.accept q).response = none := rfl
@[simp] theorem accept_history : (s.accept q).history = s.history := rfl
end Accept

section Present
variable (q : Request) (s : State)
@[simp] theorem present_params : (s.present q).params = s.params := rfl
@[simp] theorem present_incoming : (s.present q).incoming = s.incoming ++ [q] := rfl
@[simp] theorem present_inProgress : (s.present q).inProgress = s.inProgress := rfl
@[simp] theorem present_response : (s.present q).response = s.response := rfl
@[simp] theorem present_history : (s.present q).history = s.history := rfl
end Present

section HostReset
variable (s : State)
@[simp] theorem hostReset_params : s.hostReset.params = s.params := rfl
@[simp] theorem hostReset_incoming : s.hostReset.incoming = [] := rfl
@[simp] theorem hostReset_inProgress : s.hostReset.inProgress = none := rfl
@[simp] theorem hostReset_response : s.hostReset.response = none := rfl
@[simp] theorem hostReset_history : s.hostReset.history = s.history := rfl
end HostReset

section AndThen
variable {β : Type} (k : State → Host.Outcome β Fault Refusal)
@[simp] theorem andThen_next (t : State) : andThen (.next t) k = k t := rfl
@[simp] theorem andThen_fault (f : Fault) : andThen (.fault f) k = .fault f := rfl
@[simp] theorem andThen_refused (r : Refusal) : andThen (.refused r) k = .refused r := rfl
end AndThen

/-- Completing an exchange with a request in progress and a response. -/
theorem complete_of_some {s : State} {q : Request} {r : Response} (hq : s.inProgress = some q)
    (hr : s.response = some r) :
    s.complete = { s with inProgress := none, history := s.history ++ [(q, r)] } := by
  simp [State.complete, hq, hr]

@[simp] theorem complete_params (s : State) : s.complete.params = s.params := by
  unfold State.complete; split <;> rfl

@[simp] theorem complete_incoming (s : State) : s.complete.incoming = s.incoming := by
  unfold State.complete; split <;> rfl

@[simp] theorem complete_response (s : State) : s.complete.response = s.response := by
  unfold State.complete; split <;> rfl

section FetchWord
variable (s : State) (nbits w : Nat)
@[simp] theorem withFetchWord_params : (s.withFetchWord nbits w).params = s.params := rfl
@[simp] theorem withFetchWord_incoming : (s.withFetchWord nbits w).incoming = s.incoming := rfl
@[simp] theorem withFetchWord_response : (s.withFetchWord nbits w).response = none := rfl
@[simp] theorem withFetchWord_history : (s.withFetchWord nbits w).history = s.history := rfl
end FetchWord

end Sys2Proof.Machine
end

