-- ==== Sys2Proof/Laws/Ops.lean ====
section
/-! SUPPORT. Everything each shared operation on the state, the dispatch and the step can do, said once. -/

namespace Sys2Proof.Machine

/-- The response an operation's result or error amounts to. -/
def toResponse : Except ErrorCode Result → Response
  | .ok r => .ok r
  | .error e => .error e

/-- Ending a request always answers a next state, which differs in the response alone. -/
theorem answer_eq (x : Except ErrorCode Result) (s : State) : answer x s = .next (s.respond (toResponse x)) := by
  cases x <;> rfl

/-- The result or error of an operation, which names no state. -/
def instrAnswer : Instr → Except ErrorCode Result
  | .encode buf => encodeAnswer buf
  | .decode pb buf => decodeAnswer pb buf
  | .bitget buf idx => bitgetAnswer buf idx
  | .bitset buf idx val => bitsetAnswer buf idx val
  | .interleave pb buf => interleaveAnswer pb buf
  | .extract buf => extractAnswer buf
  | .lutrd idx => lutrdAnswer idx
  | .reserved => reservedAnswer

/-- The response an operation gives, which names no state. -/
def instrResponse (i : Instr) : Response := toResponse (instrAnswer i)

/-- Every arm of `exec` ends its request with its own result or error. -/
theorem exec_eq_answer (i : Instr) (s : State) : exec i s = answer (instrAnswer i) s := by
  cases i <;> rfl

/-- What `exec` can do: give one response, and nothing else. -/
theorem exec_eq (i : Instr) (s : State) : exec i s = .next (s.respond (instrResponse i)) :=
  (exec_eq_answer i s).trans (answer_eq _ s)

/-- With a request in progress none is accepted. -/
theorem acceptNext_busy {s : State} {q : Request} (hq : s.inProgress = some q) : acceptNext s = .next s := by
  simp [acceptNext, hq]

/-- What accepting can do on an idle block: nothing with no request presented, take the oldest one if it fits, refuse
it if not. -/
theorem acceptNext_cases {s : State} (hi : s.inProgress = none) :
    (s.incoming = [] ∧ acceptNext s = .next s) ∨
    (∃ q rest, s.incoming = q :: rest ∧ q.fits s.params = true ∧
      acceptNext s = .next (State.accept q { s with incoming := rest })) ∨
    (∃ q rest, s.incoming = q :: rest ∧ q.fits s.params = false ∧
      acceptNext s = .refused .bufferTooLong) := by
  cases hin : s.incoming with
  | nil => exact .inl ⟨rfl, by simp [acceptNext, hi, hin]⟩
  | cons q rest =>
    cases hf : q.fits s.params with
    | true => exact .inr (.inl ⟨q, rest, rfl, hf, by simp [acceptNext, hi, hin, hf]⟩)
    | false => exact .inr (.inr ⟨q, rest, rfl, hf, by simp [acceptNext, hi, hin, hf]⟩)

/-- The state after the exchange of a request: its response is pending, the pair is complete, nothing is in progress. -/
def State.exchanged (q : Request) (s : State) : State :=
  { s with
    inProgress := none, response := some (instrResponse (decode q)),
    history := s.history ++ [(q, instrResponse (decode q))] }

section Exchanged
variable (q : Request) (s : State)
@[simp] theorem exchanged_params : (s.exchanged q).params = s.params := rfl
@[simp] theorem exchanged_incoming : (s.exchanged q).incoming = s.incoming := rfl
@[simp] theorem exchanged_inProgress : (s.exchanged q).inProgress = none := rfl
@[simp] theorem exchanged_response : (s.exchanged q).response = some (instrResponse (decode q)) := rfl
@[simp] theorem exchanged_history : (s.exchanged q).history = s.history ++ [(q, instrResponse (decode q))] := rfl
end Exchanged

/-- Performing gives the request in progress its response and completes the exchange. -/
theorem performInProgress_eq {s : State} {q : Request} (hq : s.inProgress = some q) :
    performInProgress s = .next (s.exchanged q) := by
  simp only [performInProgress, hq, exec_eq, completing, andThen_next]
  rw [complete_of_some (q := q) (r := instrResponse (decode q)) (by simp [hq]) (by simp)]
  rfl

/-- With a request in progress a step gives its response and completes the exchange. -/
theorem step_inProgress {s : State} {q : Request} (hq : s.inProgress = some q) :
    step s = .next (s.exchanged q) := by
  rw [step, acceptNext_busy hq, andThen_next, performInProgress_eq hq]

/-- With no request in progress and none presented a step does nothing. -/
theorem step_nothing {s : State} (hi : s.inProgress = none) (hin : s.incoming = []) : step s = .next s := by
  simp [step, acceptNext, performInProgress, hi, hin]

/-- A step of an idle block answers the oldest presented request that fits. -/
theorem step_presented {s : State} {q : Request} {rest : List Request} (hi : s.inProgress = none)
    (hin : s.incoming = q :: rest) (hf : q.fits s.params = true) :
    step s = .next (State.exchanged q { s with incoming := rest }) := by
  have ha : acceptNext s = .next (State.accept q { s with incoming := rest }) := by simp [acceptNext, hi, hin, hf]
  rw [step, ha, andThen_next, performInProgress_eq (accept_inProgress _ _)]
  rfl

/-- A step of an idle block refuses the oldest presented request if it does not fit. -/
theorem step_overlong {s : State} {q : Request} {rest : List Request} (hi : s.inProgress = none)
    (hin : s.incoming = q :: rest) (hf : q.fits s.params = false) : step s = .refused .bufferTooLong := by
  simp [step, acceptNext, hi, hin, hf]

/-- A run that takes one more step starts with that step. -/
theorem run_succ_next {s s' : State} (k : Nat) (h : step s = .next s') :
    Sys2Proof.core.run (k + 1) s = Sys2Proof.core.run k s' := by
  have hs : Sys2Proof.core.step s = .next s' := h
  simp only [Host.Core.run, hs]

/-- What a step that answers a next state can have done. -/
theorem step_next_cases {s s' : State} (h : step s = .next s') :
    (∃ q, s.inProgress = some q ∧ s' = s.exchanged q) ∨
    (s.inProgress = none ∧ s.incoming = [] ∧ s' = s) ∨
    (∃ q rest, s.inProgress = none ∧ s.incoming = q :: rest ∧ q.fits s.params = true ∧
      s' = State.exchanged q { s with incoming := rest }) := by
  cases hq : s.inProgress with
  | some q =>
    rw [step_inProgress hq] at h
    exact .inl ⟨q, rfl, by injection h with h; exact h.symm⟩
  | none =>
    cases hin : s.incoming with
    | nil =>
      rw [step_nothing hq hin] at h
      exact .inr (.inl ⟨rfl, rfl, by injection h with h; exact h.symm⟩)
    | cons q rest =>
      cases hf : q.fits s.params with
      | true =>
        rw [step_presented hq hin hf] at h
        exact .inr (.inr ⟨q, rest, rfl, rfl, hf, by injection h with h; exact h.symm⟩)
      | false =>
        rw [step_overlong hq hin hf] at h
        injection h

end Sys2Proof.Machine
end

