-- ==== Sys2Proof/Laws/Bits.lean ====
section
/-! SUPPORT. Reading a bit after writing one, in a byte, a codeword and a buffer; sums over positions. -/

namespace Sys2Proof.Machine

/-- The written bit reads back. -/
theorem bitOf_withBit_same {w : Nat} (x : BitVec w) {k : Nat} (hk : k < w) (v : Bit) :
    bitOf (withBit x k v) k = v := by
  have h1 : w - 1 - k < w := by omega
  cases v <;> simp [bitOf, withBit, bitMask, BitVec.getMsbD, hk, h1]

/-- Every other bit reads as before. -/
theorem bitOf_withBit_other {w : Nat} (x : BitVec w) {j k : Nat} (hk : k < w) (hjk : j ≠ k) (v : Bit) :
    bitOf (withBit x k v) j = bitOf x j := by
  by_cases hj : j < w
  · have h1 : w - 1 - j < w := by omega
    have h2 : w - 1 - j ≠ w - 1 - k := by omega
    cases v <;> simp [bitOf, withBit, bitMask, BitVec.getMsbD, hj, h1, h2]
  · simp [bitOf, BitVec.getMsbD, hj]

theorem bitOf_withBit {w : Nat} (x : BitVec w) (j : Nat) {k : Nat} (hk : k < w) (v : Bit) :
    bitOf (withBit x k v) j = if j = k then v else bitOf x j := by
  split
  · next h => subst h; exact bitOf_withBit_same x hk v
  · next h => exact bitOf_withBit_other x hk h v

@[simp] theorem bitOf_zero {w : Nat} (k : Nat) : bitOf (0#w) k = false := by simp [bitOf]

/-- Two words with the same bits are the same word. -/
theorem eq_of_bitOf_eq {w : Nat} {x y : BitVec w} (h : ∀ k < w, bitOf x k = bitOf y k) : x = y := by
  apply BitVec.eq_of_getMsbD_eq
  intro k hk
  exact h k hk

/-- What a run of bit writes leaves: the listed bits as written, the others as before. -/
theorem bitOf_foldl_withBit {w : Nat} (ks : List Nat) (v : Nat → Bit) (hks : ∀ k ∈ ks, k < w) (x : BitVec w) (j : Nat) :
    bitOf (ks.foldl (fun cw k => withBit cw k (v k)) x) j = if j ∈ ks then v j else bitOf x j := by
  induction ks generalizing x with
  | nil => simp
  | cons k ks ih =>
    have hk : k < w := hks k (by simp)
    rw [List.foldl_cons, ih (fun k h => hks k (by simp [h])), bitOf_withBit x j hk]
    by_cases h1 : j ∈ ks
    · simp [h1]
    · by_cases h2 : j = k
      · simp [h2]
      · simp [h1, h2]

@[simp] theorem setBit_length (buf : Buf) (k : Nat) (v : Bit) : (setBit buf k v).length = buf.length := by
  simp [setBit]

/-- The written bit of a buffer reads back. -/
theorem getBit_setBit_same (buf : Buf) {k : Nat} (hk : k < 8 * buf.length) (v : Bit) :
    getBit (setBit buf k v) k = v := by
  have h : k / 8 < buf.length := by omega
  have h8 : k % 8 < 8 := Nat.mod_lt _ (by decide)
  simp only [getBit, setBit, List.getD_eq_getElem?_getD, List.getElem?_set_self h, Option.getD_some]
  exact bitOf_withBit_same _ h8 v

/-- Every other bit of a buffer reads as before. -/
theorem getBit_setBit_other (buf : Buf) {j k : Nat} (hjk : j ≠ k) (v : Bit) :
    getBit (setBit buf k v) j = getBit buf j := by
  have h8 : k % 8 < 8 := Nat.mod_lt _ (by decide)
  by_cases hd : j / 8 = k / 8
  · have hm : j % 8 ≠ k % 8 := by omega
    by_cases hl : k / 8 < buf.length
    · simp only [getBit, setBit, hd, List.getD_eq_getElem?_getD, List.getElem?_set_self hl, Option.getD_some]
      exact bitOf_withBit_other _ h8 hm v
    · simp [getBit, setBit, List.set_eq_of_length_le (Nat.le_of_not_lt hl)]
  · simp only [getBit, setBit, List.getD_eq_getElem?_getD, List.getElem?_set_ne (Ne.symm hd)]

/-! ### Sums -/

@[simp] theorem xorOver_nil (f : Nat → Bit) : xorOver [] f = false := rfl

@[simp] theorem xorOver_cons (i : Nat) (is : List Nat) (f : Nat → Bit) :
    xorOver (i :: is) f = xor (f i) (xorOver is f) := rfl

theorem xorOver_append (is js : List Nat) (f : Nat → Bit) :
    xorOver (is ++ js) f = xor (xorOver is f) (xorOver js f) := by
  induction is with
  | nil => simp
  | cons i is ih => simp [ih]

theorem xorOver_congr {is : List Nat} {f g : Nat → Bit} (h : ∀ i ∈ is, f i = g i) : xorOver is f = xorOver is g := by
  induction is with
  | nil => rfl
  | cons i is ih =>
    rw [xorOver_cons, xorOver_cons, h i (by simp), ih (fun j hj => h j (by simp [hj]))]

/-- A sum of sums is the sum of each. -/
theorem xorOver_xor (is : List Nat) (f g : Nat → Bit) :
    xorOver is (fun i => xor (f i) (g i)) = xor (xorOver is f) (xorOver is g) := by
  induction is with
  | nil => rfl
  | cons i is ih =>
    simp only [xorOver_cons, ih]
    cases f i <;> cases g i <;> simp

/-- A sum does not depend on the order of its positions. -/
theorem xorOver_perm {is js : List Nat} (h : is.Perm js) (f : Nat → Bit) : xorOver is f = xorOver js f := by
  induction h with
  | nil => rfl
  | cons i _ ih => simp [ih]
  | swap i j l => simp only [xorOver_cons]; cases f i <;> cases f j <;> simp
  | trans _ _ ih1 ih2 => exact ih1.trans ih2

theorem xorOver_map (is : List Nat) (g : Nat → Nat) (f : Nat → Bit) :
    xorOver (is.map g) f = xorOver is (fun i => f (g i)) := by
  induction is with
  | nil => rfl
  | cons i is ih => simp [ih]

/-- Bit `p` of a syndrome is the sum of the codeword bits at the positions with bit `p`. -/
theorem syndromeOver_getLsbD (is : List Nat) (cw : Codeword) {p : Nat} (hp : p < 7) :
    (syndromeOver is cw).getLsbD p = xorOver (is.filter (fun i => i.testBit p)) (bitOf cw) := by
  induction is with
  | nil => simp [syndromeOver]
  | cons i is ih =>
    have hi : (BitVec.ofNat 7 i).getLsbD p = i.testBit p := by rw [BitVec.getLsbD_ofNat]; simp [hp]
    rw [syndromeOver, BitVec.getLsbD_xor, ih]
    cases ht : i.testBit p <;> cases hb : bitOf cw i <;> rw [ht] at hi <;> simp [ht, hb, hi, -BitVec.getLsbD_eq_getElem]

end Sys2Proof.Machine
end

