-- ==== Sys2Proof/Laws/Codeword.lean ====
section
/-! SUPPORT. One lemma for each operation over the table, the codeword and its bytes: what each bit of the result is. -/

namespace Sys2Proof.Machine

/-! ### The table -/

set_option maxRecDepth 8000 in
/-- A check entry names a slot, any other entry a payload bit. -/
theorem lut_entry_range : ∀ i < 128,
    (isCheckEntry (lut i) = true → slotOf (lut i) < 8) ∧ (isCheckEntry (lut i) = false → payloadBitOf (lut i) < 120) := by
  decide

/-- The table sends the position of a slot back to the slot. -/
theorem lut_slotPosition : ∀ s < 8,
    slotPosition s < 128 ∧ isCheckEntry (lut (slotPosition s)) = true ∧ slotOf (lut (slotPosition s)) = s := by
  decide

/-- The payload positions written out: every position that is 0 or a power of two left out. -/
theorem payloadPositions_length : payloadPositions.length = 120 := by
  set_option maxRecDepth 8000 in decide

set_option maxRecDepth 20000 in
/-- The table sends the position of a payload bit back to the payload bit. -/
theorem lut_payloadPosition : ∀ b < 120,
    payloadPosition b < 128 ∧ isCheckEntry (lut (payloadPosition b)) = false ∧
      payloadBitOf (lut (payloadPosition b)) = b := by
  decide

/-! ### Interleave -/

theorem mem_positions {i : Nat} : i ∈ positions ↔ i < 128 := by simp [positions, Config.codewordBits]

/-- Every codeword position holds the bit the table names. -/
theorem bitOf_interleaveBits (pb : Byte) (payload : Buf) {i : Nat} (hi : i < 128) :
    bitOf (interleaveBits pb payload) i = codewordBit pb payload i := by
  have h := bitOf_foldl_withBit positions (codewordBit pb payload) (fun k hk => mem_positions.mp hk) 0#128 i
  simpa [mem_positions, hi, interleaveBits] using h

/-- The position of slot `s` holds slot `s` of the ParityByte. -/
theorem codewordBit_slot (pb : Byte) (payload : Buf) {s : Nat} (hs : s < 8) :
    codewordBit pb payload (slotPosition s) = bitOf pb s := by
  obtain ⟨_, h1, h2⟩ := lut_slotPosition s hs
  simp [codewordBit, h1, h2]

/-- The position of payload bit `b` holds payload bit `b`. -/
theorem codewordBit_payload (pb : Byte) (payload : Buf) {b : Nat} (hb : b < 120) :
    codewordBit pb payload (payloadPosition b) = getBit payload b := by
  obtain ⟨_, h1, h2⟩ := lut_payloadPosition b hb
  simp [codewordBit, h1, h2]

/-- With the right length the interleave gives its codeword (R130). -/
theorem getHammingInterlacedData_ok (pb : Byte) {payload : Buf} (h : payload.length = 15) :
    getHammingInterlacedData pb payload = .ok (interleaveBits pb payload) := by
  simp [getHammingInterlacedData, Config.payloadSize, h]

/-- With any other length it raises `InvalidPayloadSize` (R201). -/
theorem getHammingInterlacedData_error (pb : Byte) {payload : Buf} (h : payload.length ≠ 15) :
    getHammingInterlacedData pb payload = .error .invalidPayloadSize := by
  simp [getHammingInterlacedData, Config.payloadSize, h]

/-! ### Bytes of a codeword -/

@[simp] theorem codewordBytes_length (cw : Codeword) : (codewordBytes cw).length = 16 := by
  simp [codewordBytes, Config.codewordSize]

/-- The bytes of a codeword hold its bits in order. -/
theorem getBit_codewordBytes (cw : Codeword) {i : Nat} (hi : i < 128) : getBit (codewordBytes cw) i = bitOf cw i := by
  have hd : i / 8 < 16 := by omega
  have h8 : i % 8 < 8 := Nat.mod_lt _ (by decide)
  have hk : 128 - 8 - 8 * (i / 8) + (8 - 1 - i % 8) = 128 - 1 - i := by omega
  simp [getBit, codewordBytes, Config.codewordSize, Config.codewordBits, bitOf, BitVec.getMsbD, hd, h8, hi, hk]
  omega

/-! ### Extract -/

set_option maxRecDepth 8000 in
/-- The positions `EXTRACT` reads. -/
theorem checkPositions_eq : positions.filter (fun i => isCheckEntry (lut i)) = [0, 1, 2, 4, 8, 16, 32, 64] := by
  decide

/-- Extraction is the eight slot writes. -/
theorem extractBits_eq (buf : Buf) : extractBits buf =
    [0, 1, 2, 4, 8, 16, 32, 64].foldl (fun p i => withBit p (slotOf (lut i)) (getBit buf i)) 0#8 := by
  rw [← checkPositions_eq, List.foldl_filter]
  rfl

/-- Every slot of the extracted ParityByte is the bit at the slot's position. -/
theorem bitOf_extractBits (buf : Buf) {s : Nat} (hs : s < 8) : bitOf (extractBits buf) s = getBit buf (slotPosition s) := by
  have h : slotOf (lut 0) = 0 ∧ slotOf (lut 1) = 1 ∧ slotOf (lut 2) = 2 ∧ slotOf (lut 4) = 3 ∧ slotOf (lut 8) = 4 ∧
      slotOf (lut 16) = 5 ∧ slotOf (lut 32) = 6 ∧ slotOf (lut 64) = 7 := by decide
  obtain ⟨h0, h1, h2, h3, h4, h5, h6, h7⟩ := h
  rw [extractBits_eq]
  simp only [List.foldl_cons, List.foldl_nil, h0, h1, h2, h3, h4, h5, h6, h7]
  have hcases : s = 0 ∨ s = 1 ∨ s = 2 ∨ s = 3 ∨ s = 4 ∨ s = 5 ∨ s = 6 ∨ s = 7 := by omega
  rcases hcases with rfl | rfl | rfl | rfl | rfl | rfl | rfl | rfl <;>
    simp [bitOf_withBit, slotPosition]

/-- With the right length extraction gives its ParityByte (R140). -/
theorem setParity_ok {buf : Buf} (h : buf.length = 16) : setParity buf = .ok (extractBits buf) := by
  simp [setParity, Config.codewordSize, h]

/-- With any other length it raises `InvalidDataSize` (R202). -/
theorem setParity_error {buf : Buf} (h : buf.length ≠ 16) : setParity buf = .error .invalidDataSize := by
  simp [setParity, Config.codewordSize, h]

/-! ### Check bits -/

/-- A Hamming write changes only the bit at its own position. -/
theorem bitOf_writeHammingBit (cw : Codeword) {p : Nat} (hp : p < 7) (j : Nat) :
    bitOf (writeHammingBit cw p) j = if j = 2 ^ p then xorOver (hammingPositions p) (bitOf cw) else bitOf cw j := by
  have h : 2 ^ p < 128 := by
    have : (2 : Nat) ^ p ≤ 2 ^ 6 := Nat.pow_le_pow_right (by decide) (by omega)
    omega
  rw [writeHammingBit, Nat.one_shiftLeft, bitOf_withBit _ _ h]

/-- The overall write changes only position 0. -/
theorem bitOf_writeOverallParity (cw : Codeword) (j : Nat) :
    bitOf (writeOverallParity cw) j = if j = 0 then sumParity cw else bitOf cw j := by
  rw [writeOverallParity, bitOf_withBit _ _ (by decide)]

/-- With the right length the encoder gives the check bits of its codeword (R150, R155). -/
theorem calculateParity_ok {payload : Buf} (h : payload.length = 15) :
    calculateParity payload =
      .ok (extractBits (codewordBytes (writeOverallParity (writeHammingBits (interleaveBits 0#8 payload))))) := by
  simp [calculateParity, getHammingInterlacedData_ok _ h, setParity_ok]

/-- With any other length it raises `InvalidPayloadSize` (R201). -/
theorem calculateParity_error {payload : Buf} (h : payload.length ≠ 15) :
    calculateParity payload = .error .invalidPayloadSize := by
  simp [calculateParity, getHammingInterlacedData_error _ h]

/-- The positions of a Hamming sum are those with bit `p`. -/
theorem hammingPositions_eq (p : Nat) : hammingPositions p = sumPositions.filter (fun i => i.testBit p) := by
  unfold hammingPositions
  congr 1
  funext i
  rw [Nat.one_shiftLeft, Nat.and_two_pow]
  cases i.testBit p <;> simp

/-- Bit `p` of the syndrome is the sum at Hamming position `p` (R171). -/
theorem syndrome_getLsbD (cw : Codeword) {p : Nat} (hp : p < 7) :
    (syndrome cw).getLsbD p = xorOver (hammingPositions p) (bitOf cw) := by
  rw [syndrome, syndromeOver_getLsbD _ _ hp, hammingPositions_eq]

end Sys2Proof.Machine
end

