-- ==== Sys2Proof/Laws/Exec.lean ====
section
/-! SUPPORT. What each operation answers where its own check passes, said once, and what the seven Hamming writes of
the encoder leave. -/

namespace Sys2Proof.Machine

/-- `ENCODE` of a 15-byte payload. -/
theorem exec_encode_ok {buf : Buf} (h : buf.length = 15) (s : State) :
    exec (.encode buf) s = .next (s.respond (.ok (.encode (extractBits (codewordBytes
      (writeOverallParity (writeHammingBits (interleaveBits 0#8 buf)))))))) := by
  rw [exec_eq]
  simp [instrResponse, instrAnswer, encodeAnswer, calculateParity_ok h, toResponse, Except.map]

/-- `DECODE` of a 15-byte payload. -/
theorem exec_decode_ok (pb : Byte) {buf : Buf} (h : buf.length = 15) (s : State) :
    exec (.decode pb buf) s = .next (s.respond (.ok (decodeResult (interleaveBits pb buf)))) := by
  rw [exec_eq]
  simp [instrResponse, instrAnswer, decodeAnswer, checkParity, getHammingInterlacedData_ok _ h, toResponse, Except.map]

/-- `INTERLEAVE` of a 15-byte payload. -/
theorem exec_interleave_ok (pb : Byte) {buf : Buf} (h : buf.length = 15) (s : State) :
    exec (.interleave pb buf) s = .next (s.respond (.ok (.interleave (codewordBytes (interleaveBits pb buf))))) := by
  rw [exec_eq]
  simp [instrResponse, instrAnswer, interleaveAnswer, getHammingInterlacedData_ok _ h, toResponse, Except.map]

/-- `EXTRACT` of a 16-byte codeword. -/
theorem exec_extract_ok {buf : Buf} (h : buf.length = 16) (s : State) :
    exec (.extract buf) s = .next (s.respond (.ok (.extract (extractBits buf)))) := by
  rw [exec_eq]
  simp [instrResponse, instrAnswer, extractAnswer, setParity_ok h, toResponse, Except.map]

/-- `BITGET` inside the buffer. -/
theorem exec_bitget_ok (buf : Buf) (idx : BitVec 16) (s : State) (h : idx.toNat < 8 * buf.length) :
    exec (.bitget buf idx) s = .next (s.respond (.ok (.bitget (getBit buf idx.toNat)))) := by
  rw [exec_eq]
  simp [instrResponse, instrAnswer, bitgetAnswer, bitInRange, h, toResponse]

/-- `BITSET` inside the buffer. -/
theorem exec_bitset_ok (buf : Buf) (idx : BitVec 16) (v : Bit) (s : State) (h : idx.toNat < 8 * buf.length) :
    exec (.bitset buf idx v) s = .next (s.respond (.ok (.bitset (setBit buf idx.toNat v)))) := by
  rw [exec_eq]
  simp [instrResponse, instrAnswer, bitsetAnswer, bitInRange, h, toResponse]

/-- `LUTRD` inside the table. -/
theorem exec_lutrd_ok (idx : BitVec 16) (s : State) (h : idx.toNat < 128) :
    exec (.lutrd idx) s = .next (s.respond (.ok (lutResult (lut idx.toNat)))) := by
  rw [exec_eq]
  simp [instrResponse, instrAnswer, lutrdAnswer, Config.codewordBits, h, toResponse]

/-- A response's `Response` after reset is the operation's own. -/
theorem freshResponse_eq (q : Request) : freshResponse q = some (instrResponse (decode q)) := by
  simp [freshResponse, exec_eq]

/-- A slot of a ParityByte read as a bit of a one-byte buffer. -/
theorem getBit_singleton (pb : Byte) {s : Nat} (hs : s < 8) : getBit [pb] s = bitOf pb s := by
  have h1 : s / 8 = 0 := by omega
  have h2 : s % 8 = s := by omega
  simp [getBit, h1, h2]

/-- Two buffers of one length with the same bits are the same buffer. -/
theorem buf_ext {a b : Buf} (hl : a.length = b.length) (h : ∀ k < 8 * a.length, getBit a k = getBit b k) : a = b := by
  apply List.ext_getElem hl
  intro i h1 h2
  apply eq_of_bitOf_eq
  intro k hk
  have hb := h (8 * i + k) (by omega)
  have e1 : (8 * i + k) / 8 = i := by omega
  have e2 : (8 * i + k) % 8 = k := by omega
  simpa [getBit, e1, e2, h1, h2] using hb

/-! ### The Hamming writes -/

set_option maxRecDepth 20000 in
/-- The sum of one Hamming position reads no other Hamming position. -/
theorem pow_mem_hammingPositions : ∀ p < 7, ∀ q < 7, 2 ^ q ∈ hammingPositions p ↔ q = p := by decide

/-- What a run of Hamming writes over distinct positions leaves: each written bit is the sum of its positions in the
codeword the run began with, every other bit is as before. -/
theorem bitOf_foldl_writeHammingBit (ps : List Nat) (hps : ∀ p ∈ ps, p < 7) (hn : ps.Nodup) (cw : Codeword) (j : Nat) :
    bitOf (ps.foldl writeHammingBit cw) j =
      match ps.find? (fun p => decide (j = 2 ^ p)) with
      | some p => xorOver (hammingPositions p) (bitOf cw)
      | none => bitOf cw j := by
  induction ps generalizing cw with
  | nil => rfl
  | cons q ps ih =>
    have hq := hps q (by simp)
    rw [List.nodup_cons] at hn
    have hsum : ∀ p ∈ ps, xorOver (hammingPositions p) (bitOf (writeHammingBit cw q)) =
        xorOver (hammingPositions p) (bitOf cw) := by
      intro p hp
      apply xorOver_congr
      intro i hi
      rw [bitOf_writeHammingBit _ hq, if_neg]
      rintro rfl
      have hqp := (pow_mem_hammingPositions p (hps p (by simp [hp])) q hq).mp hi
      exact hn.1 (hqp ▸ hp)
    rw [List.foldl_cons, ih (fun p h => hps p (by simp [h])) hn.2]
    by_cases hj : j = 2 ^ q
    · have hnone : ps.find? (fun p => decide (j = 2 ^ p)) = none := by
        rw [List.find?_eq_none]
        intro p hp
        simp only [decide_eq_true_eq]
        intro hjp
        have hqp := Nat.pow_right_injective (le_refl 2) (hj.symm.trans hjp)
        exact hn.1 (hqp ▸ hp)
      rw [hnone]
      simp [hj, bitOf_writeHammingBit _ hq]
    · cases hf : ps.find? (fun p => decide (j = 2 ^ p)) with
      | none => simp [hj, hf, bitOf_writeHammingBit _ hq]
      | some p => simp [hj, hf, hsum p (List.mem_of_find?_eq_some hf)]

end Sys2Proof.Machine
end

