-- ==== Sys2Proof/Laws/Flip.lean ====
section
/-! SUPPORT. What running several exchanges and what issuing one request can do, said once. -/

namespace Sys2Proof.Machine

/-- The state after the exchanges of these requests, one after the other. -/
def State.exchangedAll (qs : List Request) (s : State) : State := qs.foldl (fun t q => t.exchanged q) s

section ExchangedAll
variable (q : Request) (qs : List Request) (s : State)
@[simp] theorem exchangedAll_nil : s.exchangedAll [] = s := rfl
@[simp] theorem exchangedAll_cons : s.exchangedAll (q :: qs) = (s.exchanged q).exchangedAll qs := rfl

@[simp] theorem exchangedAll_params : (s.exchangedAll qs).params = s.params := by
  induction qs generalizing s <;> simp [*]

@[simp] theorem exchangedAll_incoming : (s.exchangedAll qs).incoming = s.incoming := by
  induction qs generalizing s <;> simp [*]

@[simp] theorem exchangedAll_history :
    (s.exchangedAll qs).history = s.history ++ qs.map (fun q => (q, instrResponse (decode q))) := by
  induction qs generalizing s <;> simp [*]

theorem exchangedAll_inProgress {s : State} (hi : s.inProgress = none) : (s.exchangedAll qs).inProgress = none := by
  induction qs generalizing s with
  | nil => exact hi
  | cons q qs ih => exact ih rfl
end ExchangedAll

/-- A block with nothing in progress answers presented requests that fit, one step each, and leaves those after them. -/
theorem run_presented (before after : List Request) {s : State} (hi : s.inProgress = none)
    (hin : s.incoming = before ++ after) (hf : ∀ q ∈ before, q.fits s.params = true) (k : Nat) :
    Sys2Proof.core.run (before.length + k) s =
      Sys2Proof.core.run k (State.exchangedAll before { s with incoming := after }) := by
  induction before generalizing s with
  | nil =>
    subst hin
    simp
  | cons q before ih =>
    rw [List.length_cons, Nat.add_right_comm, run_succ_next _ (step_presented hi hin (hf q (by simp)))]
    exact ih rfl rfl fun r hr => hf r (by simp [hr])

/-- Issuing a request that fits to a block with nothing in progress: the requests ahead and then it are answered. -/
theorem issue_next (i : Instr) {s : State} (hi : s.inProgress = none) (hf : ∀ q ∈ s.incoming, q.fits s.params = true)
    (hq : (encode i).fits s.params = true) :
    issue i s = .next (State.exchangedAll (s.incoming ++ [encode i]) { s with incoming := [] }) := by
  have hl : s.ahead + 1 = (s.incoming ++ [encode i]).length + 0 := by simp [State.ahead, hi]
  rw [issue, hl]
  refine (run_presented (s := s.present (encode i)) (s.incoming ++ [encode i]) [] hi (by simp) ?_ 0).trans rfl
  intro q hm
  rcases List.mem_append.mp hm with hm | hm
  · exact hf q hm
  · rw [List.mem_singleton.mp hm]
    exact hq

/-- Issuing a request that does not fit to such a block is refused, after the requests ahead are answered. -/
theorem issue_overlong (i : Instr) {s : State} (hi : s.inProgress = none)
    (hf : ∀ q ∈ s.incoming, q.fits s.params = true) (hq : (encode i).fits s.params = false) :
    issue i s = .refused .bufferTooLong := by
  have hl : s.ahead + 1 = s.incoming.length + 1 := by simp [State.ahead, hi]
  rw [issue, hl, run_presented s.incoming [encode i] (by simpa using hi) rfl (by simpa using hf) 1]
  have h := step_overlong (s := State.exchangedAll s.incoming { s.present (encode i) with incoming := [encode i] })
    (q := encode i) (rest := []) (exchangedAll_inProgress _ (by simpa using hi)) (by simp) (by simpa using hq)
  have hc : Sys2Proof.core.step (State.exchangedAll s.incoming { s.present (encode i) with incoming := [encode i] }) =
      .refused .bufferTooLong := h
  simp only [Host.Core.run, hc]
  rfl

end Sys2Proof.Machine
end

