-- ==== Sys2Proof/Laws/PerInstr.lean ====
section
/-! SUPPORT. Statements for all operations, one lemma per constructor. -/

namespace Sys2Proof.Laws.EncodesToItsOwnRow

/-- The request of an operation carries the operation's `op` value, and fits the port when the operation is well formed
(R61, R63). -/
def Statement (i : Instr) : Prop :=
  (encode i).op = i.opcode ∧ ∀ p : Params, i.wellFormed p = true → (encode i).fits p = true

theorem encode (buf : Buf) : Statement (.encode buf) := ⟨rfl, fun _ h => h⟩
theorem decode (pb : Byte) (buf : Buf) : Statement (.decode pb buf) := ⟨rfl, fun _ h => h⟩
theorem bitget (buf : Buf) (idx : BitVec 16) : Statement (.bitget buf idx) := ⟨rfl, fun _ h => h⟩
theorem bitset (buf : Buf) (idx : BitVec 16) (val : Bit) : Statement (.bitset buf idx val) := ⟨rfl, fun _ h => h⟩
theorem interleave (pb : Byte) (buf : Buf) : Statement (.interleave pb buf) := ⟨rfl, fun _ h => h⟩
theorem extract (buf : Buf) : Statement (.extract buf) := ⟨rfl, fun _ h => h⟩
theorem lutrd (idx : BitVec 16) : Statement (.lutrd idx) := ⟨rfl, fun _ h => h⟩
theorem reserved : Statement .reserved := ⟨rfl, fun _ h => h⟩

end Sys2Proof.Laws.EncodesToItsOwnRow
end

