-- ==== Sys2Proof/Tests/Slice0.lean ====
section
/-! SUPPORT. The model's own tests: vectors of spec/95_test_vectors.md (V1 to V70, P1), the decoding of words written out
from spec/30_encoding.md R60 and R63, the well-formedness smoke, and a witness for the hypotheses of each statement. -/

namespace Sys2Proof.Tests
open Sys2Proof Sys2Proof.Machine
set_option maxRecDepth 20000

/-- `"hello world!!!!"` (95_test_vectors.md). -/
def hello : Buf := [0x68, 0x65, 0x6c, 0x6c, 0x6f, 0x20, 0x77, 0x6f, 0x72, 0x6c, 0x64, 0x21, 0x21, 0x21, 0x21]

/-- The same payload with the low bit of byte 0 flipped (P1). -/
def helloFlipped : Buf := [0x69, 0x65, 0x6c, 0x6c, 0x6f, 0x20, 0x77, 0x6f, 0x72, 0x6c, 0x64, 0x21, 0x21, 0x21, 0x21]

/-- The codeword of `hello` with its ParityByte (V30). -/
def helloCodeword : Buf :=
  [0xe6, 0x43, 0x95, 0xb1, 0x58, 0xde, 0x40, 0xee, 0xef, 0x72, 0x6c, 0x64, 0x21, 0x21, 0x21, 0x21]

/-- The zero payload. -/
def zero15 : Buf := [0, 0, 0, 0, 0, 0, 0, 0, 0, 0, 0, 0, 0, 0, 0]

/-- A block just after reset with this request in progress. -/
def busy (q : Request) : State := { State.reset with inProgress := some q }

/-- The response an operation gives right after reset. -/
def answerOf (i : Instr) : Option Response := freshResponse (encode i)

/-! ### Vectors, at most two an instruction -/

theorem test_encode_hello : answerOf (.encode hello) = some (.ok (.encode 0xE5#8)) := by decide  -- V45
theorem test_encode_bit112 : answerOf (.encode [0, 0, 0, 0, 0, 0, 0, 0, 0, 0, 0, 0, 0, 0, 0x80]) =
    some (.ok (.encode 0x8F#8)) := by decide  -- V43
theorem test_decode_data : answerOf (.decode 0xE5#8 helloFlipped) =
    some (.ok (.decode .recoverableErrorInData 7#7 12#7 true)) := by decide  -- V53
theorem test_decode_slot0 : (answerOf (.decode 0x65#8 hello)).map
    (fun r => match r with | .ok (.decode c _ syn ovp) => some (c, syn, ovp) | _ => none) =
    some (some (.nonRecoverableError, 0#7, true)) := by decide  -- V56
theorem test_bitget_last : answerOf (.bitget [0x00, 0x01] 15#16) = some (.ok (.bitget true)) := by decide  -- V4
theorem test_bitget_past : answerOf (.bitget [0x68] 8#16) = some (.error .bitIndexOutOfRange) := by decide  -- V7
theorem test_bitset_byte1 : answerOf (.bitset [0, 0] 8#16 true) = some (.ok (.bitset [0x00, 0x80])) := by decide  -- V13
theorem test_bitset_clear : answerOf (.bitset [0xff, 0xff] 15#16 false) = some (.ok (.bitset [0xff, 0xfe])) := by
  decide  -- V14
theorem test_lutrd_slot7 : answerOf (.lutrd 64#16) = some (.ok (.lutrd 0xA3#8 true 7#7)) := by decide  -- V21
theorem test_lutrd_payload57 : answerOf (.lutrd 65#16) = some (.ok (.lutrd 0x39#8 false 57#7)) := by decide  -- V22
theorem test_interleave_hello : answerOf (.interleave 0xE5#8 hello) = some (.ok (.interleave helloCodeword)) := by
  decide  -- V30
theorem test_interleave_slots : answerOf (.interleave 0xFF#8 zero15) = some (.ok (.interleave
    [0xe8, 0x80, 0x80, 0x00, 0x80, 0, 0, 0, 0x80, 0, 0, 0, 0, 0, 0, 0])) := by decide  -- V27
theorem test_extract_hello : answerOf (.extract helloCodeword) = some (.ok (.extract 0xE5#8)) := by decide  -- V35
theorem test_extract_17 : answerOf (.extract (0x00 :: helloCodeword)) = some (.error .invalidDataSize) := by
  decide  -- V38
theorem test_reserved : freshResponse ⟨0b111#3, 0xAA#8, 3#16, true, [0, 0]⟩ = some (.error .illegalOperation) := by
  decide  -- V67, V68
theorem test_ignored_buffer : freshResponse ⟨0b110#3, 0#8, 5#16, false, [1, 2, 3]⟩ =
    some (.ok (.lutrd 0x01#8 false 1#7)) := by decide  -- V69

/-! ### Decoding: requests and words from R60, R63 and the encodings of P1 and P5 -/

theorem test_decode_request_encode : decode ⟨0b000#3, 0#8, 0#16, false, hello⟩ = .encode hello := by decide
theorem test_decode_request_decode : decode ⟨0b001#3, 0xE5#8, 0#16, false, hello⟩ = .decode 0xE5#8 hello := by decide
theorem test_decode_request_bitget : decode ⟨0b010#3, 0#8, 7#16, false, hello⟩ = .bitget hello 7#16 := by decide
theorem test_decode_request_bitset : decode ⟨0b011#3, 0#8, 7#16, true, hello⟩ = .bitset hello 7#16 true := by decide
theorem test_decode_request_interleave : decode ⟨0b100#3, 0xE5#8, 0#16, false, hello⟩ = .interleave 0xE5#8 hello := by
  decide
theorem test_decode_request_extract : decode ⟨0b101#3, 0#8, 0#16, false, helloCodeword⟩ = .extract helloCodeword := by
  decide
theorem test_decode_request_lutrd : decode ⟨0b110#3, 0#8, 200#16, false, []⟩ = .lutrd 200#16 := by decide
theorem test_decode_request_reserved : decode ⟨0b111#3, 0#8, 0#16, false, []⟩ = .reserved := by decide

/-- The eight rows of opcode_table.json as one-byte words. -/
theorem test_table_words : (List.range 8).map (decodeTableWord 8) =
    [some (.encode []), some (.decode 0#8 []), some (.bitget [] 0#16), some (.bitset [] 0#16 false),
      some (.interleave 0#8 []), some (.extract []), some (.lutrd 0#16), some .reserved] := by decide

/-- A bit above the 28 fixed bits is refused by name. -/
theorem test_stray_bit : decodeTableWord 32 (2 ^ 28) = none := by decide

/-- The first instruction after reset runs: a word of `op = 111` is answered with `IllegalOperation`. -/
theorem test_first_word_runs : (match step (State.reset.withFetchWord 8 7) with
    | .next t => t.response
    | _ => none) = some (.error .illegalOperation) := by decide

/-- One step maps one presented request to its one response (R28): V45. -/
theorem test_presented_answered_in_one_step : (match step (State.reset.present (encode (.encode hello))) with
    | .next t => (t.response, t.incoming, t.inProgress)
    | _ => (none, [], none)) = (some (.ok (.encode 0xE5#8)), [], none) := by decide

/-- `BITSET h'68', 7, 1` (V10), with the spacing of R68. -/
theorem test_assemble_bitset : assemble
    ['B', 'I', 'T', 'S', 'E', 'T', ' ', ' ', ' ', 'h', '\'', '6', '8', '\'', ',', ' ', '7', ',', ' ', '1'] =
    some ⟨0b011#3, 0#8, 7#16, true, [0x68]⟩ := by decide

/-- `FLIP pl, 7` (P1, R70). -/
theorem test_flip_hello : (match flipBit hello 7#16 State.reset with
    | .next (out, _) => out
    | _ => []) = helloFlipped := by decide

/-- `FLIP` on a buffer one byte longer than `BUF_MAX_BYTES` is refused at the boundary (R61, R70). -/
theorem test_flip_overlong : (match flipBit (0x00 :: helloCodeword) 7#16 { State.reset with params := ⟨0⟩ } with
    | .refused .bufferTooLong => true
    | _ => false) = true := by decide

/-! ### Well-formedness smoke: the one check, refused -/

theorem test_illformed_instr : (Instr.encode (List.replicate 17 0#8)).wellFormed ⟨0⟩ = false := by decide
theorem test_illformed_request : (Request.blank 0b110#3).fits ⟨0⟩ = true ∧
    ({ Request.blank 0b110#3 with buf := List.replicate 17 0#8 } : Request).fits ⟨0⟩ = false := by decide

/-! ### Witnesses for the hypotheses of the statements -/

/-- An operation answers the response that is its own. -/
theorem exec_of {i : Instr} (s : State) {r : Response} (h : instrResponse i = r) : exec i s = .next (s.respond r) := by
  rw [exec_eq, h]

theorem witness_StepRunsTheDecodedRequest : ∃ (s t : State) (q : Request) (r : Response),
    s.inProgress = some q ∧ exec (decode q) s = .next t ∧ t.response = some r :=
  ⟨busy (encode (.encode hello)), _, _, _, rfl, exec_eq _ _, rfl⟩

theorem witness_PlacedWordRunsNext : decodeTableWord 8 2 = some (.bitget [] 0#16) := by decide

theorem witness_IdleBlockDoesNothing : State.reset.inProgress = none ∧ State.reset.incoming = [] := by decide

/-- The buffer is exactly as long as `BUF_MAX_BYTES` allows, here 16. -/
theorem witness_AnyResponseThenNextRequestAccepted :
    let q : Request := { Request.blank 0b101#3 with buf := helloCodeword }
    let s : State := { State.reset with params := ⟨0⟩, incoming := [q] }
    s.inProgress = none ∧ s.incoming = q :: [] ∧ q.buf.length ≤ s.params.bufMaxBytes := by decide

theorem witness_OverlongBufferRefusedAtBoundary :
    let q : Request := { Request.blank 0b101#3 with buf := 0x00 :: helloCodeword }
    let s : State := { State.reset with params := ⟨0⟩, incoming := [q] }
    s.inProgress = none ∧ s.incoming = q :: [] ∧ s.params.bufMaxBytes < q.buf.length := by decide

theorem witness_AcceptedRequestGetsItsOneResponse : (busy (encode .reserved)).inProgress = some (encode .reserved) := rfl

/-- Two blocks that differ in everything but the request in progress. -/
theorem witness_ResponseDependsOnlyOnItsRequest : ∃ (s t s' t' : State) (q : Request),
    s.inProgress = some q ∧ t.inProgress = some q ∧ s ≠ t ∧ step s = .next s' ∧ step t = .next t' :=
  ⟨busy (encode (.lutrd 3#16)),
    { busy (encode (.lutrd 3#16)) with params := ⟨0⟩, response := some (.error .illegalOperation),
                                       incoming := [encode .reserved] },
    _, _, _, rfl, rfl, by decide, step_inProgress rfl, step_inProgress rfl⟩

theorem witness_RequestsPerformedInOrderEachByItself :
    let s : State := { State.reset with incoming := [encode (.encode hello), encode (.lutrd 200#16)] }
    s.inProgress = none ∧ ∀ q ∈ s.incoming, q.fits s.params = true := by decide

theorem witness_OperationsChangeOnlyTheResponse : ∃ t, exec (.decode 0xE5#8 hello) State.reset = .next t :=
  ⟨_, exec_eq _ _⟩

/-- For each operation, two requests that agree on the fields it reads and differ in every other. -/
theorem witness_UnreadFieldsNeverMatter :
    let a (op : BitVec 3) : Request := ⟨op, 1#8, 2#16, true, [3]⟩
    (a 0b000#3 ≠ ⟨0b000#3, 9#8, 9#16, false, [3]⟩) ∧ (a 0b001#3 ≠ ⟨0b001#3, 1#8, 9#16, false, [3]⟩) ∧
    (a 0b010#3 ≠ ⟨0b010#3, 9#8, 2#16, false, [3]⟩) ∧ (a 0b011#3 ≠ ⟨0b011#3, 9#8, 2#16, true, [3]⟩) ∧
    (a 0b100#3 ≠ ⟨0b100#3, 1#8, 9#16, false, [3]⟩) ∧ (a 0b101#3 ≠ ⟨0b101#3, 9#8, 9#16, false, [3]⟩) ∧
    (a 0b110#3 ≠ ⟨0b110#3, 9#8, 2#16, false, [9]⟩) ∧ (a 0b111#3 ≠ ⟨0b111#3, 9#8, 9#16, false, [9]⟩) := by decide

theorem witness_ResetBlockIsIdleAndAccepts : hello.length ≤ State.reset.params.bufMaxBytes := by decide

theorem witness_ResetAbandonsTheRequestInProgress : ∃ (s u : State) (q : Request),
    s.inProgress = some q ∧ q.buf.length ≤ s.params.bufMaxBytes ∧ step s = .next u :=
  ⟨busy (encode (.encode hello)), _, _, rfl, by decide, step_inProgress rfl⟩

/-- A sound state with a request in progress, a step of it, and a sound state after one exchange. -/
theorem witness_StepKeepsSound : ∃ s s' : State, s.Sound ∧ s.inProgress ≠ none ∧ step s = .next s' := by
  refine ⟨busy (encode (.encode hello)), _, ⟨?_, ?_, ?_, ?_, ?_⟩, by decide, step_inProgress rfl⟩
  · intro q hq
    cases hq
    decide
  all_goals simp [busy, State.reset]

theorem witness_HostActionsKeepSound : ∃ s : State, s.Sound ∧ s.history ≠ [] :=
  ⟨{ State.reset with history := [(encode .reserved, .error .illegalOperation)] },
    ⟨by simp [State.reset], by simp [State.reset], by simp [State.reset], by simp; decide, by simp; decide⟩, by decide⟩

theorem witness_DecodeInvertsEncode : (2 : Nat) ^ 28 - 1 < 2 ^ 28 := by decide

theorem witness_AssemblyLineReadsBack : writeLine .reserved = none ∧
    writeLine (.lutrd 65535#16) = some ['L', 'U', 'T', 'R', 'D', ' ', '6', '5', '5', '3', '5'] ∧
    writeLine (.extract []) = some ['E', 'X', 'T', 'R', 'A', 'C', 'T', ' ', 'h', '\'', '\''] := by decide

theorem witness_StatusCodesAsNumbered : ∃ (t : State) (r : Response),
    exec (.encode []) State.reset = .next t ∧ t.response = some r := ⟨_, _, exec_eq _ _, rfl⟩

/-- Each operation's error at the edge of its check. -/
theorem witness_EachOperationRaisesOnlyItsOwnError :
    instrResponse (.encode (0 :: zero15)) = .error .invalidPayloadSize ∧
    instrResponse (.decode 0#8 []) = .error .invalidPayloadSize ∧
    instrResponse (.bitget [0] 8#16) = .error .bitIndexOutOfRange ∧
    instrResponse (.bitset [] 0#16 true) = .error .bitIndexOutOfRange ∧
    instrResponse (.interleave 0#8 (0 :: zero15)) = .error .invalidPayloadSize ∧
    instrResponse (.extract zero15) = .error .invalidDataSize ∧
    instrResponse (.lutrd 128#16) = .error .lutIndexOutOfRange ∧
    instrResponse .reserved = .error .illegalOperation := by decide

theorem witness_WrongPayloadLengthIsAnError : (0 :: zero15 : Buf).length ≠ 15 ∧ zero15.tail.length ≠ 15 := by decide

theorem witness_WrongCodewordLengthIsAnError : zero15.length ≠ 16 ∧ (0x00 :: helloCodeword : Buf).length ≠ 16 ∧
    ∃ t, exec (.encode hello) State.reset = .next t := ⟨by decide, by decide, _, exec_eq _ _⟩

theorem witness_BitIndexPastTheEndIsAnError : 8 * ([0x68] : Buf).length ≤ (8#16).toNat ∧
    8 * ([] : Buf).length ≤ (0#16).toNat := by decide

theorem witness_LutIndexPastTheEndIsAnError : 128 ≤ (128#16).toNat ∧ 128 ≤ (65535#16).toNat := by decide

theorem witness_ReservedOperationIsIllegal : (⟨0b111#3, 0xAA#8, 3#16, true, [0]⟩ : Request).op = 0b111#3 := rfl

/-- The last bit of the buffer and the first index past it. -/
theorem witness_BitgetReadsTheIndexedBit :
    let inside : Request := ⟨0b010#3, 0#8, 15#16, false, [0x00, 0x01]⟩
    let past : Request := ⟨0b010#3, 0#8, 16#16, false, [0x00, 0x01]⟩
    inside.op = 0b010#3 ∧ inside.idx.toNat / 8 < inside.buf.length ∧
      past.op = 0b010#3 ∧ 8 * past.buf.length ≤ past.idx.toNat := by decide

theorem witness_BitsetWritesTheIndexedBit :
    let inside : Request := ⟨0b011#3, 0#8, 15#16, true, [0x00, 0x01]⟩
    let past : Request := ⟨0b011#3, 0#8, 16#16, true, [0x00, 0x01]⟩
    inside.op = 0b011#3 ∧ inside.idx.toNat / 8 < inside.buf.length ∧
      past.op = 0b011#3 ∧ 8 * past.buf.length ≤ past.idx.toNat := by decide

/-- The last bit, another bit, and the value the bit has. -/
theorem witness_BitsetKeepsEverythingElse : (15#16).toNat < 8 * ([0x00, 0x01] : Buf).length ∧ 14 ≠ (15#16).toNat ∧
    true = getBit [0x00, 0x01] (15#16).toNat := by decide

theorem witness_BitsetThenBitgetAndBitsetsCommute : (0#16).toNat < 8 * ([0x68] : Buf).length ∧
    (7#16).toNat < 8 * ([0x68] : Buf).length ∧ 0#16 ≠ 7#16 := by decide

/-- An idle block with a request waiting; the last bit, the first index past it, and buffers of exactly
`BUF_MAX_BYTES` bytes, here 16, and of one byte more. -/
theorem witness_FlipInvertsOneBit :
    let s : State := { State.reset with params := ⟨0⟩, incoming := [encode (.lutrd 3#16)] }
    s.inProgress = none ∧ (∀ q ∈ s.incoming, q.fits s.params = true) ∧
    helloCodeword.length ≤ s.params.bufMaxBytes ∧ (127#16).toNat < 8 * helloCodeword.length ∧
    8 * helloCodeword.length ≤ (128#16).toNat ∧ s.params.bufMaxBytes < (0x00 :: helloCodeword : Buf).length := by
  decide

/-- The edges of the table's cases: 0, the largest power of two, the last position, the first index past the table. -/
theorem witness_LutrdAnswersTheEntry : (Request.blank 0b110#3).op = 0b110#3 ∧ 128 ≤ (128#16).toNat ∧
    (127#16).toNat < 128 ∧ (0#16).toNat = 0 ∧ (64#16).toNat = 2 ^ 6 ∧ (127#16).toNat ≠ 0 ∧
    ∀ p : Nat, (127#16).toNat ≠ 2 ^ p := by
  refine ⟨by decide, by decide, by decide, by decide, by decide, by decide, fun p hp => ?_⟩
  by_cases h : p < 7
  · have hc : ∀ p < 7, (127 : Nat) ≠ 2 ^ p := by decide
    exact hc p h hp
  · have h7 : (2 : Nat) ^ 7 ≤ 2 ^ p := Nat.pow_le_pow_right (by decide) (by omega)
    have h127 : (127 : Nat) = 2 ^ p := hp
    omega

theorem witness_TableMapsSlotsAndPayloadBitsOneToOne : lut 64 < 0 ∧ 0 ≤ lut 127 ∧ slotPosition 7 = 64 ∧
    payloadPosition 119 = 127 := by decide

theorem witness_InterleavePlacesEveryBit : hello.length = 15 ∧ (List.range 128).reverse.Perm (List.range 128) :=
  ⟨by decide, List.reverse_perm _⟩

/-- A second codeword that agrees on the eight check positions and differs elsewhere. -/
theorem witness_ExtractReadsTheEightSlots : helloCodeword.length = 16 ∧ (helloCodeword.set 15 0x00).length = 16 ∧
    (∀ i ∈ [0, 1, 2, 4, 8, 16, 32, 64], getBit (helloCodeword.set 15 0x00) i = getBit helloCodeword i) ∧
    helloCodeword.set 15 0x00 ≠ helloCodeword := by decide

/-- The one hypothesis, a 15-byte payload, of these statements: ExtractInvertsInterleave, EncodeIsLinear (two
different payloads), DecodeReportsSyndromeAndParity, DecodeNeverRaisesForAClassification, EncodeThenDecodeIsValid. -/
theorem witness_PayloadOf15Bytes : hello.length = 15 ∧ helloFlipped.length = 15 ∧ zero15.length = 15 := by decide

theorem witness_EncodeComputesTheCheckBits : hello.length = 15 ∧ (List.range 7).reverse.Perm (List.range 7) :=
  ⟨by decide, List.reverse_perm _⟩

theorem witness_EncodeOfASingleBit : 0 < 120 ∧ 119 < 120 := by decide

/-- Each case of syndrome and overall parity occurs, on `hello` and the zero payload. -/
theorem witness_DecodeClassifiesBySyndromeAndParity :
    let at' (pb : Byte) (d : Buf) := (syndrome (interleaveBits pb d), overallParity (interleaveBits pb d))
    at' 0x00#8 zero15 = (0#7, false) ∧ (at' 0x40#8 zero15 = (1#7, true) ∧ lut 1 < 0) ∧
    (at' 0xE5#8 helloFlipped = (12#7, true) ∧ 0 ≤ lut 12) ∧ at' 0x80#8 zero15 = (0#7, true) ∧
    at' 0xFF#8 zero15 = (127#7, false) := by decide

/-- The edges of the index ranges: payload bit 119, slots 1 and 7 (V54, V63, V64). -/
theorem witness_DecodeIndexRanges :
    (∃ t, exec (.decode 0xE5#8 (hello.set 14 0x20)) State.reset = .next t ∧
      t.response = some (.ok (.decode .recoverableErrorInData 119#7 127#7 true))) ∧
    (∃ t, exec (.decode 0x40#8 zero15) State.reset = .next t ∧
      t.response = some (.ok (.decode .recoverableErrorInParity 1#7 1#7 true))) ∧
    ∃ t, exec (.decode 0x01#8 zero15) State.reset = .next t ∧
      t.response = some (.ok (.decode .recoverableErrorInParity 7#7 64#7 true)) :=
  ⟨⟨_, exec_of _ (by decide), rfl⟩, ⟨_, exec_of _ (by decide), rfl⟩, _, exec_of _ (by decide), rfl⟩

theorem witness_OneDataFlipIsLocated : hello.length = 15 ∧ 0 < 120 ∧ 119 < 120 := by decide

theorem witness_OneCheckFlipIsLocated : hello.length = 15 ∧ 1 ≤ 1 ∧ 1 ≤ 7 ∧ 7 ≤ 7 := by decide

/-- Syndrome 0 with overall parity 1 occurs (V62). -/
theorem witness_OverallParityFlipIsNonRecoverable : ∃ (t : State) (c : Classification) (idx : BitVec 7),
    exec (.decode 0x80#8 zero15) State.reset = .next t ∧ t.response = some (.ok (.decode c idx 0#7 true)) :=
  ⟨_, .nonRecoverableError, 0#7, exec_of _ (by decide), rfl⟩

/-- Slot 0 and payload bit 0 flipped, codeword positions 0 and 3 (V58). -/
theorem witness_EveryDoubleFlipIsNonRecoverable : ∃ cw' : Buf,
    exec (.encode hello) State.reset = .next (State.reset.respond (.ok (.encode 0xE5#8))) ∧
    exec (.interleave 0xE5#8 hello) State.reset = .next (State.reset.respond (.ok (.interleave helloCodeword))) ∧
    exec (.interleave 0x65#8 (hello.set 0 0xe8)) State.reset = .next (State.reset.respond (.ok (.interleave cw'))) ∧
    ∀ i < 128, (getBit cw' i ≠ getBit helloCodeword i) ↔ (i = 0 ∨ i = 3) :=
  ⟨0x76 :: helloCodeword.tail, exec_of _ (by decide), exec_of _ (by decide), exec_of _ (by decide), by decide⟩

/-- The same stored pair and changed pair meet the error vector's hypotheses. -/
theorem witness_SyndromeAndParityOfTheErrorVector : ∃ cw cw' : Buf, hello.length = 15 ∧ (hello.set 0 0xe8).length = 15 ∧
    exec (.encode hello) State.reset = .next (State.reset.respond (.ok (.encode 0xE5#8))) ∧
    exec (.interleave 0xE5#8 hello) State.reset = .next (State.reset.respond (.ok (.interleave cw))) ∧
    exec (.interleave 0x65#8 (hello.set 0 0xe8)) State.reset = .next (State.reset.respond (.ok (.interleave cw'))) ∧
    cw ≠ cw' :=
  ⟨helloCodeword, 0x76 :: helloCodeword.tail, by decide, by decide, exec_of _ (by decide), exec_of _ (by decide),
    exec_of _ (by decide), by decide⟩

/-- The stored pair of the zero payload changed in slot 0 and payload bits 0, 1 and 2 (positions 0, 3, 5, 6, whose XOR
is 0), an even number; and in one bit, and in two: each case of the sums occurs. -/
theorem witness_ManyFlipsAreClassedByTheirSums :
    exec (.encode zero15) State.reset = .next (State.reset.respond (.ok (.encode 0x00#8))) ∧
    exec (.interleave 0x00#8 zero15) State.reset =
      .next (State.reset.respond (.ok (.interleave (codewordBytes 0#128)))) ∧
    exec (.interleave 0x80#8 (zero15.set 0 0xe0)) State.reset =
      .next (State.reset.respond (.ok (.interleave (0x96 :: zero15)))) ∧
    (List.range 128).countP (fun i => getBit (0x96 :: zero15) i != getBit (codewordBytes 0#128) i) = 4 ∧
    instrResponse (.decode 0x80#8 (zero15.set 0 0xe0)) = .ok (.decode .valid 0#7 0#7 false) ∧
    instrResponse (.decode 0x00#8 (zero15.set 0 0x80)) = .ok (.decode .recoverableErrorInData 0#7 3#7 true) ∧
    instrResponse (.decode 0x40#8 zero15) = .ok (.decode .recoverableErrorInParity 1#7 1#7 true) ∧
    (match instrResponse (.decode 0x00#8 (zero15.set 0 0xc0)) with
      | .ok (.decode c _ syn _) => decide (c = .nonRecoverableError ∧ syn ≠ 0#7)
      | _ => false) = true :=
  ⟨exec_of _ (by decide), exec_of _ (by decide), exec_of _ (by decide), by decide, by decide, by decide, by decide,
    by decide⟩

/-- A step with a request in progress and another waiting, and a step with none. -/
theorem witness_OneStepMapsOneRequestToOneResponse :
    (∃ s', step { busy (encode (.lutrd 3#16)) with incoming := [encode .reserved] } = .next s') ∧
    (∃ s', step (State.reset.present (encode .reserved)) = .next s') ∧ step State.reset = .next State.reset :=
  ⟨⟨_, step_inProgress rfl⟩, ⟨_, step_presented (q := encode .reserved) rfl rfl (by decide)⟩, step_nothing rfl rfl⟩

end Sys2Proof.Tests
end

section
/-! The state and the step: the block's exchange of one request for one response, and the invariant `State.Sound`
(spec/10_state.md). Every proof goes through `step_next_cases` or the step lemma of its case. -/

namespace Sys2Proof.Machine

/-- The check at the request port, as the bound on the buffer's length that R61 writes. -/
theorem fits_iff (p : Params) (q : Request) : q.fits p = true ↔ q.buf.length ≤ p.bufMaxBytes :=
  decide_eq_true_iff

/-- The exchange on a block with nothing in progress leaves that field as it was: only the pending response and the
history change. -/
theorem exchanged_of_idle (q : Request) {s : State} (hi : s.inProgress = none) :
    s.exchanged q =
      { s with
        response := some (instrResponse (decode q)), history := s.history ++ [(q, instrResponse (decode q))] } := by
  simp [State.exchanged, hi]

/-- The invariant does not read the queue of presented requests. -/
theorem sound_withIncoming {s : State} (hs : s.Sound) (qs : List Request) : State.Sound { s with incoming := qs } where
  inProgress_fits := hs.inProgress_fits
  inProgress_unanswered := hs.inProgress_unanswered
  response_last := hs.response_last
  history_fits := hs.history_fits
  history_fresh := hs.history_fresh

/-- The exchange of a request that fits keeps the invariant: the added pair is the request with its fresh response, since
an operation's response names no state (`exec_eq`). -/
theorem exchanged_sound {s : State} {q : Request} (hs : s.Sound) (hq : q.fits s.params = true) :
    (s.exchanged q).Sound where
  inProgress_fits := by simp
  inProgress_unanswered := by simp
  response_last := by simp
  history_fits := by
    intro x hx
    rw [exchanged_history, List.mem_append, List.mem_singleton] at hx
    rcases hx with hx | rfl
    · exact hs.history_fits x hx
    · exact hq
  history_fresh := by
    intro x hx
    rw [exchanged_history, List.mem_append, List.mem_singleton] at hx
    rcases hx with hx | rfl
    · exact hs.history_fresh x hx
    · exact freshResponse_eq q

/-- Settles O14: a step exchanges the request in progress, which fits by the invariant, or a presented request, which
fits because it was accepted, or changes nothing. -/
theorem stepKeepsSound : Obligations.StepKeepsSound := by
  intro s s' hs h
  rcases step_next_cases h with ⟨q, hq, rfl⟩ | ⟨_, _, rfl⟩ | ⟨q, rest, _, _, hf, rfl⟩
  · exact exchanged_sound hs (hs.inProgress_fits q hq)
  · exact hs
  · exact exchanged_sound (sound_withIncoming hs rest) hf

/-- Settles O7: both steps exchange the same request, and the exchange leaves a response that names no state. -/
theorem responseDependsOnlyOnItsRequest : Obligations.ResponseDependsOnlyOnItsRequest := by
  intro s t s' t' q hs ht hs' ht'
  rw [step_inProgress hs] at hs'
  rw [step_inProgress ht] at ht'
  cases hs'
  cases ht'
  exact ⟨rfl, (freshResponse_eq q).symm⟩

/-- Settles O52, by the three things a step that answers a next state can have done. -/
theorem oneStepMapsOneRequestToOneResponse : Obligations.OneStepMapsOneRequestToOneResponse := by
  refine ⟨block_unit, fun s s' h => ?_⟩
  rcases step_next_cases h with ⟨q, hq, rfl⟩ | hnothing | ⟨q, rest, hi, hin, _, rfl⟩
  · exact .inr ⟨q, _, by simp [hq], freshResponse_eq q, rfl, rfl, rfl, rfl⟩
  · exact .inl hnothing
  · exact .inr ⟨q, _, by simp [hi, hin], freshResponse_eq q, rfl, rfl, rfl, rfl⟩

/-- Settles O1: `exec` answers the state with the operation's response, and a step completes that exchange. -/
theorem stepRunsTheDecodedRequest : Obligations.StepRunsTheDecodedRequest := by
  intro s t q r hq ht hr
  rw [exec_eq] at ht
  cases ht
  cases hr
  exact step_inProgress hq

/-- Settles O4: the exchange overwrites whatever response was pending. -/
theorem anyResponseThenNextRequestAccepted : Obligations.AnyResponseThenNextRequestAccepted := by
  intro s p q rest hi hin hf
  refine ⟨instrResponse (decode q), freshResponse_eq q, ?_⟩
  rw [step_presented (s := { s with response := p }) hi hin ((fits_iff _ q).mpr hf)]
  exact congrArg _ (exchanged_of_idle q hi)

/-- Settles O11: the queue of a reset block holds the presented request alone. -/
theorem resetBlockIsIdleAndAccepts : Obligations.ResetBlockIsIdleAndAccepts := by
  refine ⟨rfl, rfl, fun q hf => ⟨instrResponse (decode q), freshResponse_eq q, ?_⟩⟩
  exact step_presented (s := State.reset.present q) rfl rfl ((fits_iff _ q).mpr hf)

/-- Settles O13: at reset nothing is in progress, nothing is pending and no exchange is complete. -/
theorem resetIsSound : Obligations.ResetIsSound where
  inProgress_fits := by simp [State.reset]
  inProgress_unanswered := by simp [State.reset]
  response_last := by simp [State.reset]
  history_fits := by simp [State.reset]
  history_fresh := by simp [State.reset]

end Sys2Proof.Machine
end

section
/-! The request queue of an idle block: one step per presented request, each answered by itself (spec/20_memory.md
R46). -/

namespace Sys2Proof.Machine

/-- The pair that a request adds to the completed exchanges (`exchanged_history`). -/
def freshPair (q : Request) : Request × Response := (q, instrResponse (decode q))

/-- The response of the pair is the one its request gets right after reset (R27). -/
theorem freshResponse_freshPair (q : Request) : freshResponse (freshPair q).1 = some (freshPair q).2 :=
  freshResponse_eq q

/-- As many steps as there are presented requests empty the queue of an idle block and add the requests' pairs in the
order presented. By induction on the queue: a step exchanges its head and leaves an idle block with its tail, the
parameter unchanged, so the tail still fits. -/
theorem run_incoming (qs : List Request) {s : State} (hin : s.incoming = qs) (hi : s.inProgress = none)
    (hf : ∀ q ∈ qs, q.fits s.params = true) :
    ∃ t : State, Sys2Proof.core.run qs.length s = .next t ∧ t.incoming = [] ∧ t.inProgress = none ∧
      t.history = s.history ++ qs.map freshPair := by
  induction qs generalizing s with
  | nil => exact ⟨s, rfl, hin, hi, by simp⟩
  | cons q rest ih =>
    rw [List.forall_mem_cons] at hf
    obtain ⟨hq, hrest⟩ := hf
    have hstep := step_presented hi hin hq
    obtain ⟨t, hrun, htin, hti, hth⟩ := ih (s := State.exchanged q { s with incoming := rest }) rfl rfl hrest
    refine ⟨t, (run_succ_next rest.length hstep).trans hrun, htin, hti, ?_⟩
    rw [hth, exchanged_history, List.append_assoc]
    rfl

/-- Settles O8: the exchanges added are the presented requests, each paired with its own fresh response. -/
theorem requestsPerformedInOrderEachByItself : Obligations.RequestsPerformedInOrderEachByItself := by
  intro s hi hf
  obtain ⟨t, hrun, hin, hti, hth⟩ := run_incoming s.incoming rfl hi hf
  refine ⟨t, s.incoming.map freshPair, hrun, hin, hti, hth, ?_, ?_⟩
  · rw [List.map_map]
    exact List.map_id _
  · rw [List.forall_mem_map]
    exact fun q _ => freshResponse_freshPair q

end Sys2Proof.Machine
end

section
/-! Requests, operations and the packed word: the row each `op` value selects, and decode against encode through the
28 fixed bits (spec/30_encoding.md R60 to R67; log entries 3, 4). -/

namespace Sys2Proof

/-! ### The row of each `op` value -/

section Rows
variable {q : Request}

theorem decode_of_op_encode (h : q.op = 0b000#3) : decode q = .encode q.buf := by simp [decode, h]
theorem decode_of_op_decode (h : q.op = 0b001#3) : decode q = .decode q.pb q.buf := by simp [decode, h]
theorem decode_of_op_bitget (h : q.op = 0b010#3) : decode q = .bitget q.buf q.idx := by simp [decode, h]
theorem decode_of_op_bitset (h : q.op = 0b011#3) : decode q = .bitset q.buf q.idx q.val := by simp [decode, h]
theorem decode_of_op_interleave (h : q.op = 0b100#3) : decode q = .interleave q.pb q.buf := by simp [decode, h]
theorem decode_of_op_extract (h : q.op = 0b101#3) : decode q = .extract q.buf := by simp [decode, h]
theorem decode_of_op_lutrd (h : q.op = 0b110#3) : decode q = .lutrd q.idx := by simp [decode, h]
theorem decode_of_op_reserved (h : q.op = 0b111#3) : decode q = .reserved := by simp [decode, h]

end Rows

/-- The request of an operation asks for that operation: its `op` value selects the operation's row, which reads exactly
the named fields. -/
@[simp] theorem decode_encode (i : Instr) : decode (encode i) = i := by
  cases i <;> rfl

/-! ### The packed word -/

/-- Which field each bit of the packed word belongs to. -/
theorem head_getLsbD (q : Request) (j : Nat) : q.head.getLsbD j =
    if j < 3 then q.op.getLsbD j else if j < 11 then q.pb.getLsbD (j - 3)
    else if j < 27 then q.idx.getLsbD (j - 11) else decide (j ≤ 27) && q.val := by
  have hpb : j - 3 < 8 ↔ j < 11 := by omega
  have hidx : j - 11 < 16 ↔ j < 27 := by omega
  have hval : j - 27 = 0 ↔ j ≤ 27 := by omega
  calc q.head.getLsbD j = (BitVec.ofBool q.val ++ q.idx ++ q.pb ++ q.op).getLsbD j := rfl
    _ = _ := by simp only [BitVec.getLsbD_append, BitVec.getLsbD_ofBool, Nat.sub_sub, hpb, hidx, hval]

theorem head_op (q : Request) : q.head.extractLsb' 0 3 = q.op := by
  refine BitVec.eq_of_getLsbD_eq fun j hj => ?_
  simp only [BitVec.getLsbD_extractLsb', head_getLsbD, Nat.zero_add, hj, if_true, decide_true, Bool.true_and]

theorem head_pb (q : Request) : q.head.extractLsb' 3 8 = q.pb := by
  refine BitVec.eq_of_getLsbD_eq fun j hj => ?_
  rw [BitVec.getLsbD_extractLsb', head_getLsbD, if_neg (by omega), if_pos (by omega), Nat.add_sub_cancel_left]
  simp only [hj, decide_true, Bool.true_and]

theorem head_idx (q : Request) : q.head.extractLsb' 11 16 = q.idx := by
  refine BitVec.eq_of_getLsbD_eq fun j hj => ?_
  rw [BitVec.getLsbD_extractLsb', head_getLsbD, if_neg (by omega), if_neg (by omega), if_pos (by omega),
    Nat.add_sub_cancel_left]
  simp only [hj, decide_true, Bool.true_and]

theorem head_val (q : Request) : q.head.getLsbD 27 = q.val :=
  head_getLsbD q 27

/-- Packing loses no field. -/
theorem ofHead_head (q : Request) : Request.ofHead q.head q.buf = q := by
  rw [Request.ofHead, head_op, head_pb, head_idx, head_val]

/-- Every word of 28 bits is the packed word of the request it unpacks to, whatever the buffer: each bit of the packed
word is read from the field that the same bit was unpacked into. -/
theorem head_ofHead (h : BitVec 28) (buf : Buf) : (Request.ofHead h buf).head = h := by
  refine BitVec.eq_of_getLsbD_eq fun j hj => ?_
  simp only [head_getLsbD, Request.ofHead, BitVec.getLsbD_extractLsb']
  grind

/-- A packed word has no bit above the 28, so the decoder reads the request it was packed from. -/
theorem decodeHead_head (q : Request) : decodeHead q.head.toNat q.buf = .ok (decode q) := by
  rw [decodeHead, if_pos q.head.isLt, BitVec.ofNat_toNat, BitVec.setWidth_eq, ofHead_head]

/-- Settles O18, from the two directions of the packing and `decode_encode`. -/
theorem decodeInvertsEncode : Obligations.DecodeInvertsEncode := by
  refine ⟨fun i => ?_, ofHead_head, fun w buf hw => ?_⟩
  · rw [decodeHead_head, decode_encode]
  · rw [head_ofHead, BitVec.toNat_ofNat, Nat.mod_eq_of_lt hw]

/-- Settles O16: `decode` reads `op` alone to choose the row. -/
theorem opSelectsTheOperation : Obligations.OpSelectsTheOperation := by
  intro pb idx val buf
  exact ⟨decode_of_op_encode rfl, decode_of_op_decode rfl, decode_of_op_bitget rfl, decode_of_op_bitset rfl,
    decode_of_op_interleave rfl, decode_of_op_extract rfl, decode_of_op_lutrd rfl, decode_of_op_reserved rfl⟩

/-- Settles O17: each word is evaluated, the last one past the decoder's bound. -/
theorem writtenOutWordsDecode : Obligations.WrittenOutWordsDecode := by
  unfold Obligations.WrittenOutWordsDecode
  refine ⟨?_, ?_, ?_, ?_, ?_, ?_, ?_, ?_, ?_⟩ <;> decide

end Sys2Proof

namespace Sys2Proof.Machine

/-- Settles O10: two requests of one row that agree on the fields the row reads decode to one operation. -/
theorem unreadFieldsNeverMatter : Obligations.UnreadFieldsNeverMatter := by
  intro q r s hop
  refine ⟨fun h hbuf => ?_, fun h hpb hbuf => ?_, fun h hbuf hidx => ?_, fun h hbuf hidx hval => ?_,
    fun h hpb hbuf => ?_, fun h hbuf => ?_, fun h hidx => ?_, fun h => ?_⟩
  · rw [decode_of_op_encode h, decode_of_op_encode (hop ▸ h), hbuf]
  · rw [decode_of_op_decode h, decode_of_op_decode (hop ▸ h), hpb, hbuf]
  · rw [decode_of_op_bitget h, decode_of_op_bitget (hop ▸ h), hbuf, hidx]
  · rw [decode_of_op_bitset h, decode_of_op_bitset (hop ▸ h), hbuf, hidx, hval]
  · rw [decode_of_op_interleave h, decode_of_op_interleave (hop ▸ h), hpb, hbuf]
  · rw [decode_of_op_extract h, decode_of_op_extract (hop ▸ h), hbuf]
  · rw [decode_of_op_lutrd h, decode_of_op_lutrd (hop ▸ h), hidx]
  · rw [decode_of_op_reserved h, decode_of_op_reserved (hop ▸ h)]

/-- What the table decoder reads from a word is the operation of the request the word unpacks to, with the empty
buffer. -/
theorem decode_of_decodeTableWord {nbits w : Nat} {i : Instr} (h : decodeTableWord nbits w = some i) :
    decode (Request.ofHead (BitVec.ofNat 28 (w % 2 ^ nbits)) []) = i := by
  by_cases hw : w % 2 ^ nbits < 2 ^ 28
  · rw [decodeTableWord, decodeHead, if_pos hw] at h
    exact Option.some.inj h
  · rw [decodeTableWord, decodeHead, if_neg hw] at h
    cases h

/-- With a request in progress a step is the operation it decodes to, carried on to the completed exchange. -/
theorem step_eq_completing {s : State} {q : Request} (hq : s.inProgress = some q) :
    step s = completing (exec (decode q) s) := by
  simp [step, acceptNext_busy hq, performInProgress, hq]

/-- Settles O2: a placed word is the request in progress, and it decodes to the operation the table decoder reads. -/
theorem placedWordRunsNext : Obligations.PlacedWordRunsNext := by
  intro s nbits w i h
  rw [step_eq_completing (s := s.withFetchWord nbits w) rfl, decode_of_decodeTableWord h]

/-- Settles O5: the accepting step refuses a request that does not fit, and the parameter is an excess over 16. -/
theorem overlongBufferRefusedAtBoundary : Obligations.OverlongBufferRefusedAtBoundary := by
  intro s q rest hi hin hlong
  have hf : q.fits s.params = false := by
    rw [Bool.eq_false_iff, ne_eq, fits_iff]
    omega
  exact ⟨step_overlong hi hin hf, Nat.le_add_right _ _⟩

/-- The classification of a 2-bit code (R65). -/
def Classification.ofCode (c : BitVec 2) : Classification :=
  if c = 0b00#2 then .valid
  else if c = 0b01#2 then .recoverableErrorInData
  else if c = 0b10#2 then .recoverableErrorInParity
  else .nonRecoverableError

theorem code_ofCode : ∀ c : BitVec 2, (Classification.ofCode c).code = c := by decide

theorem ofCode_code (cls : Classification) : Classification.ofCode cls.code = cls := by
  cases cls <;> rfl

/-- Settles O44: the codes are the numbers of the table, and `Classification.ofCode` inverts coding on both sides. -/
theorem classCodesAsNumbered : Obligations.ClassCodesAsNumbered := by
  refine ⟨rfl, rfl, rfl, rfl, fun c => ⟨.ofCode c, code_ofCode c, fun other h => ?_⟩⟩
  rw [← h, ofCode_code]

end Sys2Proof.Machine
end

section
/-! The pseudo-instruction FLIP: what issuing one request leaves, and the exchanges of the two requests FLIP expands to
(spec/30_encoding.md R69, R70; log entry 14). -/

namespace Sys2Proof.Machine

/-- The state after issuing a request that fits: the requests ahead of it and then it are answered (`issue_fits`). -/
def State.issued (i : Instr) (s : State) : State :=
  State.exchangedAll (s.incoming ++ [encode i]) { s with incoming := [] }

/-- The last exchange of an issue is that of the issued request. -/
theorem issued_eq_exchanged (i : Instr) (s : State) :
    s.issued i = (State.exchangedAll s.incoming { s with incoming := [] }).exchanged (encode i) :=
  List.foldl_append

section Issued
variable (i : Instr) (s : State)

@[simp] theorem issued_params : (s.issued i).params = s.params := by simp [State.issued]

@[simp] theorem issued_incoming : (s.issued i).incoming = [] := by simp [State.issued]

@[simp] theorem issued_inProgress : (s.issued i).inProgress = none := by simp [issued_eq_exchanged]

@[simp] theorem issued_response : (s.issued i).response = some (instrResponse i) := by simp [issued_eq_exchanged]

/-- The exchanges an issue adds are those of the requests ahead, then the issued one. -/
@[simp] theorem issued_requests :
    (s.issued i).history.map Prod.fst = s.history.map Prod.fst ++ s.incoming ++ [encode i] := by
  simp [State.issued, Function.comp_def]
end Issued

/-- An operation's request fits the port exactly when its buffer operand does (R61). -/
theorem encode_fits (i : Instr) (p : Params) : (encode i).fits p = decide (i.buffer.length ≤ p.bufMaxBytes) := by
  cases i <;> rfl

/-- `issue_next` with the resulting state named. -/
theorem issue_fits (i : Instr) {s : State} (hi : s.inProgress = none) (hf : ∀ q ∈ s.incoming, q.fits s.params = true)
    (hfit : i.buffer.length ≤ s.params.bufMaxBytes) : issue i s = .next (s.issued i) :=
  issue_next i hi hf ((encode_fits i s.params).trans (decide_eq_true hfit))

/-- A block that has just answered an issued request is ready for the next one that fits. -/
theorem issue_issued (i j : Instr) {s : State} (hfit : j.buffer.length ≤ s.params.bufMaxBytes) :
    issue j (s.issued i) = .next ((s.issued i).issued j) :=
  issue_fits j (issued_inProgress i s) (by simp) (by rwa [issued_params])

section Responses
variable {buf : Buf} {idx : BitVec 16}

theorem instrResponse_bitget_ok (h : idx.toNat < 8 * buf.length) :
    instrResponse (.bitget buf idx) = .ok (.bitget (getBit buf idx.toNat)) := by
  simp [instrResponse, instrAnswer, bitgetAnswer, bitInRange, h, toResponse]

theorem instrResponse_bitget_error (h : 8 * buf.length ≤ idx.toNat) :
    instrResponse (.bitget buf idx) = .error .bitIndexOutOfRange := by
  simp [instrResponse, instrAnswer, bitgetAnswer, bitInRange, Nat.not_lt.mpr h, toResponse]

theorem instrResponse_bitset_ok (v : Bit) (h : idx.toNat < 8 * buf.length) :
    instrResponse (.bitset buf idx v) = .ok (.bitset (setBit buf idx.toNat v)) := by
  simp [instrResponse, instrAnswer, bitsetAnswer, bitInRange, h, toResponse]
end Responses

section Flip
variable {buf : Buf} {idx : BitVec 16} {s : State}

/-- `FLIP` inside the buffer issues `BITGET` and `BITSET` of the inverted bit, and writes the result back. -/
theorem flipBit_inside (hi : s.inProgress = none) (hf : ∀ q ∈ s.incoming, q.fits s.params = true)
    (hfit : buf.length ≤ s.params.bufMaxBytes) (h : idx.toNat < 8 * buf.length) :
    flipBit buf idx s = .next (setBit buf idx.toNat (!getBit buf idx.toNat),
      (s.issued (.bitget buf idx)).issued (.bitset buf idx (!getBit buf idx.toNat))) := by
  rw [flipBit, issue_fits (.bitget buf idx) hi hf hfit, andThen_next, issued_response, instrResponse_bitget_ok h]
  simp only [flipWrite]
  rw [issue_issued (.bitget buf idx) (.bitset buf idx _) hfit, andThen_next, issued_response,
    instrResponse_bitset_ok _ h]
  rfl

/-- `FLIP` past the end issues `BITGET` alone, whose error stands. -/
theorem flipBit_past (hi : s.inProgress = none) (hf : ∀ q ∈ s.incoming, q.fits s.params = true)
    (hfit : buf.length ≤ s.params.bufMaxBytes) (h : 8 * buf.length ≤ idx.toNat) :
    flipBit buf idx s = .next (buf, s.issued (.bitget buf idx)) := by
  rw [flipBit, issue_fits (.bitget buf idx) hi hf hfit, andThen_next, issued_response, instrResponse_bitget_error h]

/-- `FLIP` on an overlong buffer is refused with its first request. -/
theorem flipBit_overlong (hi : s.inProgress = none) (hf : ∀ q ∈ s.incoming, q.fits s.params = true)
    (hlong : s.params.bufMaxBytes < buf.length) : flipBit buf idx s = .refused .bufferTooLong := by
  have hq : (encode (.bitget buf idx)).fits s.params = false :=
    (encode_fits _ _).trans (decide_eq_false (Nat.not_le_of_lt hlong))
  rw [flipBit, issue_overlong _ hi hf hq, andThen_refused]
end Flip

/-- Settles O31: the three forms of `FLIP`, and what writing one bit of a buffer leaves. -/
theorem flipInvertsOneBit : Obligations.FlipInvertsOneBit := by
  intro buf idx s hi hf
  refine ⟨fun hfit h => ?_, fun hfit h => ?_, flipBit_overlong hi hf⟩
  · refine ⟨_, _, flipBit_inside hi hf hfit h, issued_inProgress _ _, issued_incoming _ _, setBit_length _ _ _,
      fun j hj => getBit_setBit_other buf hj _, getBit_setBit_same buf h _, ?_⟩
    simp
  · refine ⟨_, flipBit_past hi hf hfit h, issued_inProgress _ _, issued_incoming _ _, ?_, issued_requests _ _⟩
    rw [issued_response, instrResponse_bitget_error h]

end Sys2Proof.Machine
end

section
/-! The assembly line: each operand's text reads back, and a line splits into its mnemonic and operands
(spec/30_encoding.md R68; log entry 13). -/

namespace Sys2Proof.Machine

/-! ### Hex digits, bytes and buffers -/

theorem hexValue_hexChar : ∀ n < 16, hexValue (hexChar n) = some n := by decide

theorem hexByte_hexChars (b : Byte) : hexByte (hexChar (b.toNat / 16)) (hexChar (b.toNat % 16)) = some b := by
  have hhi := hexValue_hexChar (b.toNat / 16) (by omega)
  have hlo := hexValue_hexChar (b.toNat % 16) (by omega)
  have hb : 16 * (b.toNat / 16) + b.toNat % 16 = b.toNat := Nat.div_add_mod _ _
  simp only [hexByte, hhi, hlo, hb, BitVec.ofNat_toNat, BitVec.setWidth_eq]

/-- The quoted part of a buffer's text reads back, two digits a byte. -/
theorem quotedBytes_flatMap_writeByte (buf : Buf) : quotedBytes (buf.flatMap writeByte ++ ['\'']) = some buf := by
  induction buf with
  | nil => rfl
  | cons b buf ih =>
    simp only [List.flatMap_cons, writeByte, List.cons_append, List.nil_append, quotedBytes, hexByte_hexChars]
    rw [ih]

@[simp] theorem readBuf_writeBuf (buf : Buf) : readBuf (writeBuf buf) = some buf :=
  quotedBytes_flatMap_writeByte buf

@[simp] theorem readPb_writePb (pb : Byte) : readPb (writePb pb) = some pb :=
  hexByte_hexChars pb

@[simp] theorem readVal_writeVal (val : Bit) : readVal (writeVal val) = some val := by
  cases val <;> rfl

/-! ### Decimal numbers -/

/-- Reading a run of digits and then another goes on from the value of the first. -/
theorem decimalValue_append (acc : Nat) (cs ds : Line) :
    decimalValue acc (cs ++ ds) = (decimalValue acc cs).bind fun v => decimalValue v ds := by
  induction cs generalizing acc with
  | nil => rfl
  | cons c cs ih =>
    simp only [List.cons_append, decimalValue]
    split
    · exact ih _
    · rfl

/-- One digit's place in a decimal number. -/
theorem decimalValue_digit (acc : Nat) {n : Nat} (hn : n < 10) :
    decimalValue acc [Char.ofNat (48 + n)] = some (10 * acc + n) := by
  have hd : ∀ n < 10, (Char.ofNat (48 + n)).toNat = 48 + n := by decide
  have h : 48 ≤ 48 + n ∧ 48 + n ≤ 57 := by omega
  simp only [decimalValue, hd n hn, if_pos h, Nat.add_sub_cancel_left]

theorem decimalValue_writeDecimal (digits n : Nat) (hn : n < 10 ^ digits) :
    decimalValue 0 (writeDecimal digits n) = some n := by
  induction digits generalizing n with
  | zero =>
    obtain rfl : n = 0 := by simpa using hn
    rfl
  | succ d ih =>
    rw [writeDecimal]
    split
    · next h => rw [decimalValue_digit 0 h, Nat.mul_zero, Nat.zero_add]
    · have hq : n / 10 < 10 ^ d := by rw [Nat.div_lt_iff_lt_mul (by decide), ← Nat.pow_succ]; exact hn
      have hr : n % 10 < 10 := Nat.mod_lt _ (by decide)
      rw [decimalValue_append, ih _ hq, Option.bind_some, decimalValue_digit _ hr, Nat.div_add_mod]

/-! ### Texts without spaces and commas -/

/-- A mnemonic or operand as a line holds it: not empty, with none of the characters that separate. -/
structure IsField (t : Line) : Prop where
  ne_nil : t ≠ []
  ne_separator : ∀ c ∈ t, c ≠ ' ' ∧ c ≠ ','

/-- A text written out is such a field by evaluation. -/
theorem isField_of_all {t : Line} (h : t.isEmpty = false ∧ t.all (fun c => c ≠ ' ' ∧ c ≠ ',') = true) :
    IsField t where
  ne_nil := by simpa using h.1
  ne_separator := by simpa using h.2

theorem hexChar_ne_separator : ∀ n < 16, hexChar n ≠ ' ' ∧ hexChar n ≠ ',' := by decide

theorem digitChar_ne_separator : ∀ n < 10, Char.ofNat (48 + n) ≠ ' ' ∧ Char.ofNat (48 + n) ≠ ',' := by decide

theorem mem_writeByte_ne_separator {b : Byte} {c : Char} (h : c ∈ writeByte b) : c ≠ ' ' ∧ c ≠ ',' := by
  simp only [writeByte, List.mem_cons, List.not_mem_nil, or_false] at h
  rcases h with rfl | rfl
  · exact hexChar_ne_separator _ (by omega)
  · exact hexChar_ne_separator _ (by omega)

theorem mem_writeDecimal_ne_separator {digits n : Nat} {c : Char} (h : c ∈ writeDecimal digits n) :
    c ≠ ' ' ∧ c ≠ ',' := by
  induction digits generalizing n with
  | zero => cases h
  | succ d ih =>
    rw [writeDecimal] at h
    split at h
    · next hn =>
      rw [List.mem_singleton.mp h]
      exact digitChar_ne_separator n hn
    · rcases List.mem_append.mp h with h | h
      · exact ih h
      · rw [List.mem_singleton.mp h]
        exact digitChar_ne_separator _ (Nat.mod_lt _ (by decide))

@[simp] theorem isField_writeBuf (buf : Buf) : IsField (writeBuf buf) := by
  refine ⟨by simp [writeBuf], ?_⟩
  rw [writeBuf, List.forall_mem_append, List.forall_mem_append]
  refine ⟨⟨by simp, fun c hc => ?_⟩, by simp⟩
  obtain ⟨b, _, hb⟩ := List.mem_flatMap.mp hc
  exact mem_writeByte_ne_separator hb

@[simp] theorem isField_writePb (pb : Byte) : IsField (writePb pb) := by
  refine ⟨by simp [writePb], ?_⟩
  rw [writePb, List.forall_mem_append]
  exact ⟨by simp, fun c hc => mem_writeByte_ne_separator hc⟩

@[simp] theorem isField_writeIdx (idx : BitVec 16) : IsField (writeIdx idx) := by
  refine ⟨?_, fun c hc => mem_writeDecimal_ne_separator hc⟩
  rw [writeIdx, writeDecimal]
  split <;> simp

@[simp] theorem isField_writeVal (val : Bit) : IsField (writeVal val) := by
  cases val <;> exact isField_of_all (by decide)

@[simp] theorem readIdx_writeIdx (idx : BitVec 16) : readIdx (writeIdx idx) = some idx := by
  have hv : decimalValue 0 (writeIdx idx) = some idx.toNat := decimalValue_writeDecimal 5 _ (by omega)
  obtain ⟨c, cs, hcs⟩ := List.exists_cons_of_ne_nil (isField_writeIdx idx).ne_nil
  rw [hcs] at hv ⊢
  simp only [readIdx, hv, if_pos idx.isLt, BitVec.ofNat_toNat, BitVec.setWidth_eq]

/-! ### A line's mnemonic and operands -/

/-- Trimming leaves a text with no space at either end as it is. -/
theorem trim_eq_self {t : Line} (hfirst : t.head? ≠ some ' ') (hlast : t.getLast? ≠ some ' ') : trim t = t := by
  have hdrop : ∀ u : Line, u.head? ≠ some ' ' → u.dropWhile (· = ' ') = u := by
    intro u hu
    cases u with
    | nil => rfl
    | cons c u => exact List.dropWhile_cons_of_neg (by simpa using hu)
  rw [trim, hdrop t hfirst, hdrop t.reverse (by rwa [List.head?_reverse]), List.reverse_reverse]

theorem IsField.head?_ne_space {t : Line} (h : IsField t) : t.head? ≠ some ' ' :=
  fun hc => (h.ne_separator ' ' (List.mem_of_head? hc)).1 rfl

theorem IsField.getLast?_ne_space {t : Line} (h : IsField t) : t.getLast? ≠ some ' ' :=
  fun hc => (h.ne_separator ' ' (List.mem_of_getLast? hc)).1 rfl

/-- Trimming takes the space before an operand off. -/
theorem IsField.trim_space_cons {t : Line} (h : IsField t) : trim (' ' :: t) = t :=
  trim_eq_self h.head?_ne_space h.getLast?_ne_space

/-- No comma in an operand, nor in the space before it. -/
theorem IsField.space_cons_ne_comma {t : Line} (h : IsField t) : ∀ c ∈ ' ' :: t, c ≠ ',' :=
  List.forall_mem_cons.mpr ⟨by decide, fun c hc => (h.ne_separator c hc).2⟩

theorem splitAtCommas_of_no_comma {t : Line} (h : ∀ c ∈ t, c ≠ ',') : splitAtCommas t = [t] := by
  induction t with
  | nil => rfl
  | cons c t ih =>
    obtain ⟨hc, ht⟩ := List.forall_mem_cons.mp h
    rw [splitAtCommas, if_neg hc, ih ht]

theorem splitAtCommas_append_comma {t : Line} (h : ∀ c ∈ t, c ≠ ',') (rest : Line) :
    splitAtCommas (t ++ ',' :: rest) = t :: splitAtCommas rest := by
  induction t with
  | nil => rfl
  | cons c t ih =>
    obtain ⟨hc, ht⟩ := List.forall_mem_cons.mp h
    rw [List.cons_append, splitAtCommas, if_neg hc, ih ht]

/-- The rest of a line after its mnemonic: the operand `a` and those after it, a space before each and a comma between
two. -/
def operandText (a : Line) : List Line → Line
  | [] => ' ' :: a
  | b :: rest => ' ' :: a ++ ',' :: operandText b rest

/-- The operands read back from their text: split at the commas, each without its space. -/
theorem map_trim_splitAtCommas_operandText {a : Line} {rest : List Line} (h : ∀ t ∈ a :: rest, IsField t) :
    (splitAtCommas (operandText a rest)).map trim = a :: rest := by
  induction rest generalizing a with
  | nil =>
    have ha := h a (by simp)
    rw [operandText, splitAtCommas_of_no_comma ha.space_cons_ne_comma, List.map_singleton, ha.trim_space_cons]
  | cons b rest ih =>
    obtain ⟨ha, hrest⟩ := List.forall_mem_cons.mp h
    rw [operandText, splitAtCommas_append_comma ha.space_cons_ne_comma, List.map_cons, ha.trim_space_cons, ih hrest]

/-- The text of the operands begins with the space that ends the mnemonic. -/
theorem operandText_first (a : Line) (rest : List Line) : ∃ u, operandText a rest = ' ' :: u := by
  cases rest <;> exact ⟨_, rfl⟩

/-- The text of the operands ends in an operand, and so in no space. -/
theorem operandText_last {a : Line} {rest : List Line} (h : ∀ t ∈ a :: rest, IsField t) :
    ∃ u t, IsField t ∧ operandText a rest = u ++ t := by
  induction rest generalizing a with
  | nil => exact ⟨[' '], a, h a (by simp), rfl⟩
  | cons b rest ih =>
    obtain ⟨u, t, ht, hu⟩ := ih (List.forall_mem_cons.mp h).2
    exact ⟨' ' :: a ++ ',' :: u, t, ht, by simp [operandText, hu]⟩

/-- A line of a mnemonic and operands asks for what the mnemonic makes of the operands. -/
theorem readLine_operandText {mn a : Line} {rest : List Line} (hmn : IsField mn) (h : ∀ t ∈ a :: rest, IsField t) :
    readLine (mn ++ operandText a rest) = readOperation mn (a :: rest) := by
  have htrim : trim (mn ++ operandText a rest) = mn ++ operandText a rest := by
    obtain ⟨u, t, ht, hu⟩ := operandText_last h
    refine trim_eq_self ?_ ?_
    · rw [List.head?_append_of_ne_nil _ hmn.ne_nil]
      exact hmn.head?_ne_space
    · rw [hu, ← List.append_assoc, List.getLast?_append_of_ne_nil _ ht.ne_nil]
      exact ht.getLast?_ne_space
  have hmn' : ∀ c ∈ mn, decide (c ≠ ' ') = true := fun c hc => decide_eq_true (hmn.ne_separator c hc).1
  obtain ⟨u, hu⟩ := operandText_first a rest
  have htake : (mn ++ operandText a rest).takeWhile (· ≠ ' ') = mn := by
    rw [List.takeWhile_append_of_pos hmn', hu, List.takeWhile_cons_of_neg (by decide), List.append_nil]
  have hdrop : (mn ++ operandText a rest).dropWhile (· ≠ ' ') = operandText a rest := by
    rw [List.dropWhile_append_of_pos hmn', hu, List.dropWhile_cons_of_neg (by decide)]
  rw [readLine, htrim, htake, hdrop, map_trim_splitAtCommas_operandText h]

/-! ### The line of an operation -/

/-- The reserved operation alone has no line (R68). -/
theorem writeLine_eq_none_iff (i : Instr) : writeLine i = none ↔ i = .reserved := by
  cases i <;> simp [writeLine]

/-- What a line is: a mnemonic and operands that together ask for the operation it was written for. -/
theorem writeLine_eq_some {i : Instr} {line : Line} (h : writeLine i = some line) :
    ∃ mn a rest, IsField mn ∧ (∀ t ∈ a :: rest, IsField t) ∧ line = mn ++ operandText a rest ∧
      readOperation mn (a :: rest) = some i := by
  cases i with
  | encode buf =>
    cases h
    exact ⟨mnENCODE, writeBuf buf, [], isField_of_all (by decide), by simp, by simp [operandText],
      by simp [readOperation]⟩
  | decode pb buf =>
    cases h
    exact ⟨mnDECODE, writePb pb, [writeBuf buf], isField_of_all (by decide), by simp, by simp [operandText],
      by simp [readOperation]⟩
  | bitget buf idx =>
    cases h
    exact ⟨mnBITGET, writeBuf buf, [writeIdx idx], isField_of_all (by decide), by simp, by simp [operandText],
      by simp [readOperation, mnBITGET, mnDECODE, mnINTERLEAVE]⟩
  | bitset buf idx val =>
    cases h
    exact ⟨mnBITSET, writeBuf buf, [writeIdx idx, writeVal val], isField_of_all (by decide), by simp,
      by simp [operandText], by simp [readOperation]⟩
  | interleave pb buf =>
    cases h
    exact ⟨mnINTERLEAVE, writePb pb, [writeBuf buf], isField_of_all (by decide), by simp, by simp [operandText],
      by simp [readOperation, mnINTERLEAVE, mnDECODE]⟩
  | extract buf =>
    cases h
    exact ⟨mnEXTRACT, writeBuf buf, [], isField_of_all (by decide), by simp, by simp [operandText],
      by simp [readOperation, mnEXTRACT, mnENCODE]⟩
  | lutrd idx =>
    cases h
    exact ⟨mnLUTRD, writeIdx idx, [], isField_of_all (by decide), by simp, by simp [operandText],
      by simp [readOperation, mnLUTRD, mnENCODE, mnEXTRACT]⟩
  | reserved => cases h

/-- Settles O19: a line splits into the mnemonic and the operands it was written from, and each operand's text reads
back. -/
theorem assemblyLineReadsBack : Obligations.AssemblyLineReadsBack := by
  refine fun i => ⟨writeLine_eq_none_iff i, fun line h => ?_⟩
  obtain ⟨mn, a, rest, hmn, hops, rfl, hread⟩ := writeLine_eq_some h
  rw [assemble, readLine_operandText hmn hops, hread, Option.map_some]

end Sys2Proof.Machine
end

section
/-! BITGET and BITSET: the spec's byte formulas for reading and writing one bit, and what two accesses to one buffer do
to each other (spec/40_bitbuffer.md R100 to R107). -/

namespace Sys2Proof.Machine

/-! ### One bit of a byte, as R100 and R104 compute it -/

/-- Shifting bit `k` down to weight 1 and masking reads it (R100). -/
theorem shiftRight_and_one_eq_bitOf (x : Byte) {k : Nat} (hk : k < 8) :
    (x >>> (7 - k)) &&& 1#8 = if bitOf x k then 1#8 else 0#8 := by
  have hbit : (x >>> (7 - k)).getLsbD 0 = bitOf x k := by
    simp [bitOf, BitVec.getMsbD, hk, -BitVec.getLsbD_eq_getElem]
  rw [BitVec.and_one_eq_setWidth_ofBool_getLsbD, hbit]
  cases bitOf x k <;> rfl

/-- The mask of bit `k` of a byte (R42). -/
theorem bitMask_byte : ∀ k < 8, bitMask 8 k = 0x80#8 >>> k := by decide

/-- The byte formula of a bit write (R104); `AND 0xFF` keeps every bit of a byte. -/
theorem withBit_byte (x : Byte) {k : Nat} (hk : k < 8) (v : Bit) :
    withBit x k v = (x &&& (~~~(0x80#8 >>> k) &&& 0xFF#8)) ||| (if v then 0x80#8 >>> k else 0#8) := by
  have hff : ~~~(0x80#8 >>> k) &&& 0xFF#8 = ~~~(0x80#8 >>> k) := BitVec.and_allOnes
  rw [withBit, bitMask_byte k hk, hff]

/-! ### One bit of a buffer -/

theorem getBit_eq_bitOf_getElem {buf : Buf} {k : Nat} (h : k / 8 < buf.length) :
    getBit buf k = bitOf buf[k / 8] (k % 8) := by
  simp [getBit, h]

theorem setBit_eq_set_getElem {buf : Buf} {k : Nat} (h : k / 8 < buf.length) (v : Bit) :
    setBit buf k v = buf.set (k / 8) (withBit buf[k / 8] (k % 8) v) := by
  simp [setBit, h]

/-- Every bit inside a buffer after one bit was written. -/
theorem getBit_setBit (buf : Buf) (k : Nat) (v : Bit) {j : Nat} (hj : j < 8 * buf.length) :
    getBit (setBit buf k v) j = if j = k then v else getBit buf j := by
  split
  · next h =>
    subst h
    exact getBit_setBit_same buf hj v
  · next h => exact getBit_setBit_other buf h v

/-- Writing the value a bit has changes no bit. -/
theorem setBit_getBit_self (buf : Buf) (k : Nat) : setBit buf k (getBit buf k) = buf := by
  refine buf_ext (setBit_length _ _ _) fun j hj => ?_
  rw [setBit_length] at hj
  rw [getBit_setBit buf k _ hj]
  split
  · next h => rw [h]
  · rfl

/-- Writes to different bits commute: each bit is written by at most one of them. -/
theorem setBit_comm (buf : Buf) {i j : Nat} (hij : i ≠ j) (v w : Bit) :
    setBit (setBit buf i v) j w = setBit (setBit buf j w) i v := by
  refine buf_ext (by simp only [setBit_length]) fun k hk => ?_
  simp only [setBit_length] at hk
  simp only [getBit_setBit, setBit_length, hk]
  by_cases hki : k = i
  · have hkj : k ≠ j := hki ▸ hij
    rw [if_neg hkj, if_pos hki, if_pos hki]
  · rw [if_neg hki, if_neg hki]

/-! ### Past the end -/

/-- `BITGET` at or past the end. -/
theorem exec_bitget_past {buf : Buf} {idx : BitVec 16} (s : State) (h : 8 * buf.length ≤ idx.toNat) :
    exec (.bitget buf idx) s = .next (s.respond (.error .bitIndexOutOfRange)) := by
  rw [exec_eq, instrResponse_bitget_error h]

/-- `BITSET` at or past the end. -/
theorem exec_bitset_past {buf : Buf} {idx : BitVec 16} (v : Bit) (s : State) (h : 8 * buf.length ≤ idx.toNat) :
    exec (.bitset buf idx v) s = .next (s.respond (.error .bitIndexOutOfRange)) := by
  rw [exec_eq]
  simp [instrResponse, instrAnswer, bitsetAnswer, bitInRange, Nat.not_lt.mpr h, toResponse]

/-! ### The statements -/

/-- Settles O27: the answered bit is bit `k mod 8` of byte `k div 8`, which the shift and mask read. -/
theorem bitgetReadsTheIndexedBit : Obligations.BitgetReadsTheIndexedBit := by
  intro q s hop
  refine ⟨decode_of_op_bitget hop, fun h => ⟨_, exec_bitget_ok q.buf q.idx s (by omega), ?_⟩, exec_bitget_past s⟩
  rw [getBit_eq_bitOf_getElem h, shiftRight_and_one_eq_bitOf _ (Nat.mod_lt _ (by decide))]

/-- Settles O28: the answered buffer has byte `k div 8` written, by the formula of `withBit_byte`. -/
theorem bitsetWritesTheIndexedBit : Obligations.BitsetWritesTheIndexedBit := by
  intro q s hop
  refine ⟨decode_of_op_bitset hop, fun h => ?_, exec_bitset_past q.val s⟩
  rw [exec_bitset_ok q.buf q.idx q.val s (by omega), setBit_eq_set_getElem h,
    withBit_byte _ (Nat.mod_lt _ (by decide))]

/-- Settles O29, by what one bit write leaves of each bit and `setBit_getBit_self`. -/
theorem bitsetKeepsEverythingElse : Obligations.BitsetKeepsEverythingElse := by
  intro buf idx val s h
  refine ⟨_, exec_bitset_ok buf idx val s h, setBit_length _ _ _, fun j hj => getBit_setBit_other buf hj val,
    getBit_setBit_same buf h val, ?_⟩
  rintro rfl
  exact setBit_getBit_self buf idx.toNat

/-- Settles O30: a write keeps the length, so the second operation is inside the buffer too; then the written bit reads
back, and `setBit_comm`. -/
theorem bitsetThenBitgetAndBitsetsCommute : Obligations.BitsetThenBitgetAndBitsetsCommute := by
  intro buf i j v w s hi hj
  have hlen : ∀ (k : Nat) (x : Bit), 8 * (setBit buf k x).length = 8 * buf.length := by simp
  refine ⟨_, _, setBit (setBit buf i.toNat v) j.toNat w, exec_bitset_ok buf i v s hi, exec_bitset_ok buf j w s hj, ?_,
    fun hij => ⟨exec_bitset_ok _ j w s (by rwa [hlen]), ?_⟩⟩
  · rw [exec_bitget_ok _ i s (by rwa [hlen]), getBit_setBit_same buf hi v]
  · have hne : i.toNat ≠ j.toNat := fun h => hij (BitVec.eq_of_toNat_eq h)
    rw [exec_bitset_ok _ i v s (by rwa [hlen]), setBit_comm buf hne]

end Sys2Proof.Machine
end

section
/-! The lookup table: its entries and the maps `P` and `Q` that invert it (spec/41_lut_interleave.md R120 to R124). -/

namespace Sys2Proof.Machine

theorem isCheckEntry_iff (e : Int) : isCheckEntry e = true ↔ e < 0 := decide_eq_true_iff

/-! ### The entries -/

/-- The entry of a power of two names its slot (R120). -/
theorem lut_two_pow : ∀ p : Nat, p < 7 → lut (2 ^ p) = p + 1 - 100 := by decide

/-- Every other entry skips the powers of two passed so far (R120, R121). -/
theorem lut_of_not_two_pow {i : Nat} (h0 : i ≠ 0) (hp : ∀ p, i ≠ 2 ^ p) : lut i = i - powersOfTwoUpTo i - 1 := by
  have hand : i &&& (i - 1) ≠ 0 := by
    rw [Ne, Nat.and_sub_one_eq_zero_iff_isPowerOfTwo h0]
    rintro ⟨p, rfl⟩
    exact hp p rfl
  rw [lut, if_neg h0, if_neg hand]

theorem powersOfTwoUpTo_le (i : Nat) : powersOfTwoUpTo i ≤ 7 := List.countP_le_length

/-- No entry is below slot 0's. -/
theorem neg_hundred_le_lut (i : Nat) : -100 ≤ lut i := by
  have hcount := powersOfTwoUpTo_le i
  rw [lut, Config.parityBitOffset]
  split
  · decide
  · split <;> omega

/-- What `LUTRD` answers of an entry, with the slot or payload bit in the integers of R124. -/
theorem lutResult_eq {e : Int} (h : -100 ≤ e) :
    lutResult e = .lutrd (BitVec.ofInt 8 e) (decide (e < 0)) (BitVec.ofInt 7 (if e < 0 then e + 100 else e)) := by
  have htarget : ((if e < 0 then slotOf e else payloadBitOf e : Nat) : Int) = if e < 0 then e + 100 else e := by
    rw [slotOf, payloadBitOf, Config.parityBitOffset]
    split <;> omega
  rw [← htarget, BitVec.ofInt_natCast]
  simp only [lutResult, isCheckEntry, decide_eq_true_eq]

/-- `LUTRD` at or past the table's end (R205). -/
theorem exec_lutrd_past {idx : BitVec 16} (s : State) (h : 128 ≤ idx.toNat) :
    exec (.lutrd idx) s = .next (s.respond (.error .lutIndexOutOfRange)) := by
  rw [exec_eq]
  simp [instrResponse, instrAnswer, lutrdAnswer, Config.codewordBits, Nat.not_lt.mpr h, toResponse]

/-- Settles O32: the entry is `lut idx`, by the three cases of R120. -/
theorem lutrdAnswersTheEntry : Obligations.LutrdAnswersTheEntry := by
  refine ⟨fun q => decode_of_op_lutrd, fun idx s => exec_lutrd_past s,
    fun idx s h => ⟨lut idx.toNat, ?_, ?_, ?_, ?_⟩⟩
  · rw [exec_lutrd_ok idx s h, lutResult_eq (neg_hundred_le_lut _)]
  · intro h0
    rw [h0]
    rfl
  · intro p hp
    rw [hp] at h ⊢
    exact lut_two_pow p ((Nat.pow_lt_pow_iff_right (by decide)).mp (show 2 ^ p < 2 ^ 7 from h))
  · exact lut_of_not_two_pow

/-! ### The slots -/

/-- The check positions are the slots' positions, in the order of the slots. -/
theorem checkPositions_eq_map : positions.filter (fun i => isCheckEntry (lut i)) = (List.range 8).map slotPosition :=
  checkPositions_eq

theorem lut_neg_iff {i : Nat} (hi : i < 128) : lut i < 0 ↔ i ∈ [0, 1, 2, 4, 8, 16, 32, 64] := by
  rw [← checkPositions_eq, List.mem_filter, mem_positions, isCheckEntry_iff]
  exact ⟨fun h => ⟨hi, h⟩, fun h => h.2⟩

theorem lut_slotPosition_eq : ∀ s < 8, lut (slotPosition s) = s - 100 := by decide

/-- A check position is the position of the slot its entry names. -/
theorem slotPosition_lut {i : Nat} (hi : i < 128) (h : lut i < 0) : slotPosition (lut i + 100).toNat = i := by
  have hmem : i ∈ (List.range 8).map slotPosition := (lut_neg_iff hi).mp h
  obtain ⟨s, hs, rfl⟩ := List.mem_map.mp hmem
  rw [lut_slotPosition_eq s (List.mem_range.mp hs), Int.sub_add_cancel, Int.toNat_natCast]

/-! ### The payload bits -/

theorem payloadPosition_eq_getElem {b : Nat} (hb : b < payloadPositions.length) :
    payloadPosition b = payloadPositions[b] := by
  simp [payloadPosition, hb]

theorem mem_payloadPositions {i : Nat} : i ∈ payloadPositions ↔ i < 128 ∧ 0 ≤ lut i := by
  rw [payloadPositions, List.mem_filter, mem_positions]
  simp [isCheckEntry]

theorem lut_payloadPosition_eq {b : Nat} (hb : b < 120) : lut (payloadPosition b) = b := by
  obtain ⟨_, hkind, htarget⟩ := lut_payloadPosition b hb
  have hneg : ¬ lut (payloadPosition b) < 0 := of_decide_eq_false hkind
  rw [payloadBitOf] at htarget
  omega

/-- A payload position is the position of the payload bit its entry names: it stands somewhere in the list that `Q`
reads. -/
theorem payloadPosition_lut {i : Nat} (hi : i < 128) (h : 0 ≤ lut i) : payloadPosition (lut i).toNat = i := by
  obtain ⟨b, hb, rfl⟩ := List.getElem_of_mem (mem_payloadPositions.mpr ⟨hi, h⟩)
  rw [← payloadPosition_eq_getElem hb, lut_payloadPosition_eq (payloadPositions_length ▸ hb), Int.toNat_natCast]

/-- `Q` is increasing, since it lists positions in their order. -/
theorem payloadPosition_lt {a b : Nat} (hab : a < b) (hb : b < 120) : payloadPosition a < payloadPosition b := by
  have hsorted : payloadPositions.Pairwise (· < ·) := List.Pairwise.filter _ List.pairwise_lt_range
  rw [← payloadPositions_length] at hb
  rw [payloadPosition_eq_getElem hb, payloadPosition_eq_getElem (hab.trans hb)]
  exact List.pairwise_iff_getElem.mp hsorted a b _ hb hab

/-- Settles O33, from the lists of check positions and of payload positions. -/
theorem tableMapsSlotsAndPayloadBitsOneToOne : Obligations.TableMapsSlotsAndPayloadBitsOneToOne :=
  ⟨fun _ hi => lut_neg_iff hi, fun s hs => ⟨(lut_slotPosition s hs).1, lut_slotPosition_eq s hs⟩,
    fun _ hi h => slotPosition_lut hi h, fun b hb => ⟨(lut_payloadPosition b hb).1, lut_payloadPosition_eq hb⟩,
    fun _ hi h => payloadPosition_lut hi h, fun _ _ hab hb => payloadPosition_lt hab hb⟩

end Sys2Proof.Machine
end

section
/-! INTERLEAVE and EXTRACT in closed form, and the one against the other (spec/41_lut_interleave.md R130 to R142). -/

namespace Sys2Proof.Machine

/-! ### INTERLEAVE -/

/-- The codeword holds slot `k` of the ParityByte at `P(k)`. -/
theorem getBit_interleave_slot (pb : Byte) (buf : Buf) {k : Nat} (hk : k < 8) :
    getBit (codewordBytes (interleaveBits pb buf)) (slotPosition k) = bitOf pb k := by
  have hpos : slotPosition k < 128 := (lut_slotPosition k hk).1
  rw [getBit_codewordBytes _ hpos, bitOf_interleaveBits pb buf hpos, codewordBit_slot pb buf hk]

/-- The codeword holds payload bit `b` at `Q(b)`. -/
theorem getBit_interleave_payload (pb : Byte) (buf : Buf) {b : Nat} (hb : b < 120) :
    getBit (codewordBytes (interleaveBits pb buf)) (payloadPosition b) = getBit buf b := by
  have hpos : payloadPosition b < 128 := (lut_payloadPosition b hb).1
  rw [getBit_codewordBytes _ hpos, bitOf_interleaveBits pb buf hpos, codewordBit_payload pb buf hb]

set_option maxRecDepth 8000 in
/-- Past the last check position, 64, an entry is 8 behind its position. -/
theorem lut_add_eight : ∀ b < 120, 57 ≤ b → lut (b + 8) = b := by decide

/-- From bit 57 on `Q` moves the payload by a whole byte (R123). -/
theorem payloadPosition_of_ge {b : Nat} (h : 57 ≤ b) (hb : b < 120) : payloadPosition b = b + 8 := by
  have hlut := lut_add_eight b hb h
  have hQ := payloadPosition_lut (i := b + 8) (by omega) (by omega)
  rwa [hlut, Int.toNat_natCast] at hQ

/-- A byte of a buffer, by its bits. -/
theorem bitOf_getElem {buf : Buf} {j m : Nat} (hj : j < buf.length) (hm : m < 8) :
    bitOf buf[j] m = getBit buf (8 * j + m) := by
  have hdiv : (8 * j + m) / 8 = j := by omega
  have hmod : (8 * j + m) % 8 = m := by omega
  simp [getBit, hdiv, hmod, hj]

/-- Bytes 9 to 15 of the codeword are bytes 8 to 14 of the payload. -/
theorem interleave_getElem? (pb : Byte) {buf : Buf} (hbuf : buf.length = 15) {j : Nat} (h9 : 9 ≤ j) (h15 : j ≤ 15) :
    (codewordBytes (interleaveBits pb buf))[j]? = buf[j - 1]? := by
  have hj : j < (codewordBytes (interleaveBits pb buf)).length := by
    rw [codewordBytes_length]
    omega
  have hj1 : j - 1 < buf.length := by omega
  rw [List.getElem?_eq_getElem hj, List.getElem?_eq_getElem hj1]
  refine congrArg some (eq_of_bitOf_eq fun m hm => ?_)
  have hpos : payloadPosition (8 * (j - 1) + m) = 8 * j + m := by
    rw [payloadPosition_of_ge (by omega) (by omega)]
    omega
  rw [bitOf_getElem hj hm, bitOf_getElem hj1 hm, ← hpos, getBit_interleave_payload pb buf (by omega)]

/-- Each position is written with a bit that names no other, so every order of the positions gives the codeword. -/
theorem foldl_withBit_perm (pb : Byte) (buf : Buf) {order : List Nat} (h : order.Perm (List.range 128)) :
    order.foldl (fun cw i => withBit cw i (codewordBit pb buf i)) 0#128 = interleaveBits pb buf := by
  have hmem : ∀ k, k ∈ order ↔ k < 128 := fun k => h.mem_iff.trans List.mem_range
  refine eq_of_bitOf_eq fun i hi => ?_
  rw [bitOf_foldl_withBit order _ (fun k hk => (hmem k).mp hk), if_pos ((hmem i).mpr hi),
    bitOf_interleaveBits pb buf hi]

/-- A slot of a ParityByte, as R131 shifts it down to weight 1. -/
theorem shiftRight_getLsbD_zero (x : Byte) {k : Nat} (hk : k < 8) : (x >>> (7 - k)).getLsbD 0 = bitOf x k := by
  rw [bitOf, BitVec.getMsbD_eq_getLsbD, BitVec.getLsbD_ushiftRight]
  simp only [hk, decide_true, Bool.true_and, Nat.add_zero]

/-- Settles O34: slots and payload bits stand where `P` and `Q` say, and `Q` moves the payload's tail by a whole
byte. -/
theorem interleavePlacesEveryBit : Obligations.InterleavePlacesEveryBit := by
  intro pb buf s h
  refine ⟨_, exec_interleave_ok pb h s, codewordBytes_length _, fun k hk => ?_,
    fun b hb => getBit_interleave_payload pb buf hb, fun j h9 h15 => interleave_getElem? pb h h9 h15,
    fun order ho => congrArg codewordBytes (foldl_withBit_perm pb buf ho)⟩
  rw [getBit_interleave_slot pb buf hk, shiftRight_getLsbD_zero pb hk]

/-! ### EXTRACT -/

/-- The extraction loop, from any initial byte, is the eight slot writes in the order of the slots. -/
theorem foldl_extractStep_eq (buf : Buf) (p0 : Byte) : positions.foldl (extractStep buf) p0 =
    (List.range 8).foldl (fun p k => withBit p k (getBit buf (slotPosition k))) p0 := by
  calc positions.foldl (extractStep buf) p0
    _ = (positions.filter (fun i => isCheckEntry (lut i))).foldl
          (fun p i => withBit p (slotOf (lut i)) (getBit buf i)) p0 := by
        rw [List.foldl_filter]
        rfl
    _ = (List.range 8).foldl
          (fun p k => withBit p (slotOf (lut (slotPosition k))) (getBit buf (slotPosition k))) p0 := by
        rw [checkPositions_eq_map, List.foldl_map]
    _ = _ := by
        refine List.foldl_ext _ _ _ fun p k hk => ?_
        obtain ⟨_, _, hslot⟩ := lut_slotPosition k (List.mem_range.mp hk)
        rw [hslot]

/-- Every slot is written, so the loop's initial byte does not show. -/
theorem foldl_extractStep_eq_extractBits (buf : Buf) (p0 : Byte) :
    positions.foldl (extractStep buf) p0 = extractBits buf := by
  refine eq_of_bitOf_eq fun k hk => ?_
  rw [foldl_extractStep_eq, bitOf_foldl_withBit _ _ (fun k h => List.mem_range.mp h), if_pos (List.mem_range.mpr hk),
    bitOf_extractBits buf hk]

/-- Each slot's position is one of the eight check positions. -/
theorem slotPosition_mem : ∀ k < 8, slotPosition k ∈ [0, 1, 2, 4, 8, 16, 32, 64] := by decide

/-- Extraction reads no other position. -/
theorem extractBits_congr {a b : Buf} (h : ∀ i ∈ [0, 1, 2, 4, 8, 16, 32, 64], getBit a i = getBit b i) :
    extractBits a = extractBits b := by
  refine eq_of_bitOf_eq fun k hk => ?_
  rw [bitOf_extractBits a hk, bitOf_extractBits b hk, h _ (slotPosition_mem k hk)]

/-- A bit of an OR over a list. -/
theorem bitOf_foldl_or {w : Nat} (ks : List Nat) (f : Nat → BitVec w) (x : BitVec w) (j : Nat) :
    bitOf (ks.foldl (fun acc k => acc ||| f k) x) j = (bitOf x j || ks.any (fun k => bitOf (f k) j)) := by
  induction ks generalizing x with
  | nil => simp
  | cons k ks ih =>
    have hor : bitOf (x ||| f k) j = (bitOf x j || bitOf (f k) j) := BitVec.getMsbD_or
    rw [List.foldl_cons, ih, List.any_cons, hor, Bool.or_assoc]

/-- A bit shifted left by `7 - k` stands in slot `k` and in no other. -/
theorem bitOf_shiftLeft_slot : ∀ k < 8, ∀ j < 8, ∀ v : Bit,
    bitOf ((if v then 1#8 else 0#8) <<< (7 - k)) j = (decide (k = j) && v) := by decide

/-- The extracted ParityByte as the OR of R141. -/
theorem extractBits_eq_or (buf : Buf) : extractBits buf = (List.range 8).foldl
    (fun acc k => acc ||| ((if getBit buf (slotPosition k) then 1#8 else 0#8) <<< (7 - k))) 0#8 := by
  refine eq_of_bitOf_eq fun j hj => ?_
  rw [bitOf_foldl_or, bitOf_extractBits buf hj, bitOf_zero, Bool.false_or, Bool.eq_iff_iff, List.any_eq_true]
  constructor
  · intro h
    refine ⟨j, List.mem_range.mpr hj, ?_⟩
    rw [bitOf_shiftLeft_slot j hj j hj, h, decide_eq_true rfl, Bool.and_true]
  · rintro ⟨k, hk, hbit⟩
    rw [bitOf_shiftLeft_slot k (List.mem_range.mp hk) j hj, Bool.and_eq_true, decide_eq_true_iff] at hbit
    obtain ⟨rfl, h⟩ := hbit
    exact h

/-- Settles O35, from the eight slot writes. -/
theorem extractReadsTheEightSlots : Obligations.ExtractReadsTheEightSlots := by
  intro buf s h
  refine ⟨_, exec_extract_ok h s, extractBits_eq_or buf, fun other hlen hsame => ?_,
    foldl_extractStep_eq_extractBits buf⟩
  rw [exec_extract_ok hlen s, extractBits_congr hsame]

/-! ### The one against the other -/

/-- Extraction reads each slot where the interleave put it. -/
theorem extractBits_interleave (pb : Byte) (buf : Buf) : extractBits (codewordBytes (interleaveBits pb buf)) = pb := by
  refine eq_of_bitOf_eq fun k hk => ?_
  rw [bitOf_extractBits _ hk, getBit_interleave_slot pb buf hk]

/-- Settles O36: a codeword is 16 bytes long, so both operations complete; then `extractBits_interleave`. -/
theorem extractInvertsInterleave : Obligations.ExtractInvertsInterleave := by
  intro pb d s h
  refine ⟨_, exec_interleave_ok pb h s, ?_⟩
  rw [exec_extract_ok (codewordBytes_length _) s, extractBits_interleave]

end Sys2Proof.Machine
end

section
/-! ENCODE in closed form: every slot of its ParityByte is a sum of payload bits, from which the even weight of the
codeword, linearity and the table of R154 follow (spec/42_encode.md R150 to R154). -/

namespace Sys2Proof.Machine

/-! ### Sums -/

theorem xorOver_eq_false {is : List Nat} {f : Nat → Bit} (h : ∀ i ∈ is, f i = false) : xorOver is f = false := by
  induction is with
  | nil => rfl
  | cons i is ih => rw [xorOver_cons, h i (by simp), ih fun j hj => h j (by simp [hj]), Bool.xor_self]

/-- A sum with one position at most that counts is the bit there. -/
theorem xorOver_single {is : List Nat} (hn : is.Nodup) {k : Nat} (hk : k ∈ is) {f : Nat → Bit}
    (h : ∀ i ∈ is, i ≠ k → f i = false) : xorOver is f = f k := by
  have hrest : xorOver (is.erase k) f = false :=
    xorOver_eq_false fun i hi => h i (List.mem_of_mem_erase hi) (hn.mem_erase_iff.mp hi).1
  rw [xorOver_perm (List.perm_cons_erase hk), xorOver_cons, hrest, Bool.xor_false]

/-- Leaving positions out of a sum is counting them as 0. -/
theorem xorOver_filter (is : List Nat) (q : Nat → Bool) (f : Nat → Bit) :
    xorOver (is.filter q) f = xorOver is (fun i => q i && f i) := by
  induction is with
  | nil => rfl
  | cons i is ih => cases hq : q i <;> simp [hq, ih]

theorem xorOver_and (is : List Nat) (f : Nat → Bit) (v : Bit) :
    xorOver is (fun i => f i && v) = (xorOver is f && v) := by
  cases v with
  | false => simpa using xorOver_eq_false (is := is) fun _ _ => rfl
  | true => simp

/-- The order of two sums may be exchanged. -/
theorem xorOver_comm (is js : List Nat) (f : Nat → Nat → Bit) :
    xorOver is (fun i => xorOver js (f i)) = xorOver js (fun j => xorOver is (fun i => f i j)) := by
  induction is with
  | nil => exact (xorOver_eq_false fun _ _ => rfl).symm
  | cons i is ih => simp only [xorOver_cons, ih, xorOver_xor]

/-- A sum of bits is the parity of how many are set. -/
theorem xorOver_eq_countP (is : List Nat) (f : Nat → Bit) : xorOver is f = decide (is.countP f % 2 = 1) := by
  induction is with
  | nil => rfl
  | cons i is ih =>
    rw [xorOver_cons, ih, List.countP_cons]
    cases f i with
    | false => simp
    | true =>
      rcases Nat.mod_two_eq_zero_or_one (is.countP f) with h | h <;> simp [Nat.add_mod, h]

/-! ### The positions of a codeword: slots and payload bits -/

theorem slotPosition_succ (p : Nat) : slotPosition (p + 1) = 2 ^ p := rfl

theorem payloadPositions_eq_map : payloadPositions = (List.range 120).map payloadPosition := by
  refine List.ext_getElem (by simp [payloadPositions_length]) fun b h _ => ?_
  rw [List.getElem_map, List.getElem_range, payloadPosition_eq_getElem h]

theorem positions_eq_cons : positions = 0 :: sumPositions := List.range_eq_range'.trans List.range'_succ

/-- The slots' positions and the payload bits' positions are all positions (R123). -/
theorem positions_perm :
    ((List.range 8).map slotPosition ++ (List.range 120).map payloadPosition).Perm positions := by
  rw [← checkPositions_eq_map, ← payloadPositions_eq_map]
  exact List.filter_append_perm _ _

/-- A sum over `[1, 128)` taken apart: slots 1 to 7 and the payload bits. -/
theorem xorOver_sumPositions (f : Nat → Bit) : xorOver sumPositions f =
    xor (xorOver (List.range 7) (fun p => f (2 ^ p))) (xorOver (List.range 120) (fun b => f (payloadPosition b))) := by
  have hperm : (((List.range 7).map (2 ^ ·)) ++ (List.range 120).map payloadPosition).Perm sumPositions :=
    List.Perm.cons_inv (a := 0) positions_perm
  rw [← xorOver_perm hperm, xorOver_append, xorOver_map, xorOver_map]

/-- A codeword is the interleave of a ParityByte and a payload when it holds their bits where `P` and `Q` say. -/
theorem eq_interleaveBits {cw : Codeword} {pb : Byte} {buf : Buf}
    (hslot : ∀ k < 8, bitOf cw (slotPosition k) = bitOf pb k)
    (hpay : ∀ b < 120, bitOf cw (payloadPosition b) = getBit buf b) : cw = interleaveBits pb buf := by
  refine eq_of_bitOf_eq fun i hi => ?_
  rw [bitOf_interleaveBits pb buf hi]
  rcases List.mem_append.mp (positions_perm.mem_iff.mpr (mem_positions.mpr hi)) with h | h
  · obtain ⟨k, hk, rfl⟩ := List.mem_map.mp h
    rw [hslot k (List.mem_range.mp hk), codewordBit_slot pb buf (List.mem_range.mp hk)]
  · obtain ⟨b, hb, rfl⟩ := List.mem_map.mp h
    rw [hpay b (List.mem_range.mp hb), codewordBit_payload pb buf (List.mem_range.mp hb)]

theorem bitOf_interleaveBits_slot (pb : Byte) (buf : Buf) {k : Nat} (hk : k < 8) :
    bitOf (interleaveBits pb buf) (slotPosition k) = bitOf pb k := by
  rw [bitOf_interleaveBits pb buf (lut_slotPosition k hk).1, codewordBit_slot pb buf hk]

theorem bitOf_interleaveBits_payload (pb : Byte) (buf : Buf) {b : Nat} (hb : b < 120) :
    bitOf (interleaveBits pb buf) (payloadPosition b) = getBit buf b := by
  rw [bitOf_interleaveBits pb buf (lut_payloadPosition b hb).1, codewordBit_payload pb buf hb]

/-- No payload bit stands at the position of a slot. -/
theorem payloadPosition_ne_slotPosition {b k : Nat} (hb : b < 120) (hk : k < 8) :
    payloadPosition b ≠ slotPosition k := by
  intro h
  have hpay := (lut_payloadPosition b hb).2.1
  have hslot := (lut_slotPosition k hk).2.1
  rw [h, hslot] at hpay
  exact Bool.noConfusion hpay

/-! ### The sums of an interleaved codeword -/

/-- The Hamming sum of `p` counts slot `p + 1`, no other slot, and the payload bits whose position has bit `p`. -/
theorem xorOver_hammingPositions_interleaveBits (pb : Byte) (buf : Buf) {p : Nat} (hp : p < 7) :
    xorOver (hammingPositions p) (bitOf (interleaveBits pb buf)) =
      xor (bitOf pb (p + 1)) (xorOver (List.range 120) (fun b => (payloadPosition b).testBit p && getBit buf b)) := by
  rw [hammingPositions_eq, xorOver_filter, xorOver_sumPositions]
  congr 1
  · rw [xorOver_single List.nodup_range (List.mem_range.mpr hp), Nat.testBit_two_pow_self, Bool.true_and,
      ← slotPosition_succ, bitOf_interleaveBits_slot pb buf (by omega)]
    intro q _ hq
    rw [Nat.testBit_two_pow_of_ne hq, Bool.false_and]
  · refine xorOver_congr fun b hb => ?_
    rw [bitOf_interleaveBits_payload pb buf (List.mem_range.mp hb)]

/-- The sum over `[1, 128)` counts slots 1 to 7 and every payload bit. -/
theorem sumParity_interleaveBits (pb : Byte) (buf : Buf) : sumParity (interleaveBits pb buf) =
    xor (xorOver (List.range 7) (fun p => bitOf pb (p + 1))) (xorOver (List.range 120) (getBit buf)) := by
  rw [sumParity, xorOver_sumPositions]
  congr 1
  · refine xorOver_congr fun p hp => ?_
    rw [← slotPosition_succ, bitOf_interleaveBits_slot pb buf (Nat.succ_lt_succ (List.mem_range.mp hp))]
  · exact xorOver_congr fun b hb => bitOf_interleaveBits_payload pb buf (List.mem_range.mp hb)

/-- The overall parity of a codeword is the parity of the weight of its bytes (R172). -/
theorem overallParity_eq_countP (cw : Codeword) :
    overallParity cw = decide ((List.range 128).countP (fun i => getBit (codewordBytes cw) i) % 2 = 1) := by
  calc overallParity cw
    _ = xorOver positions (bitOf cw) := by rw [positions_eq_cons, xorOver_cons, overallParity, sumParity]
    _ = xorOver (List.range 128) (getBit (codewordBytes cw)) :=
        xorOver_congr fun i hi => (getBit_codewordBytes cw (mem_positions.mp hi)).symm
    _ = _ := xorOver_eq_countP _ _

/-! ### The Hamming writes, in any order -/

theorem hammingExponents_perm : hammingExponents.Perm (List.range 7) := List.Perm.refl _

section HammingOrder
variable {order : List Nat} (ho : order.Perm (List.range 7)) (cw : Codeword)
include ho

theorem find?_two_pow_eq_some {p : Nat} (hp : p < 7) : order.find? (fun q => decide (2 ^ p = 2 ^ q)) = some p := by
  cases hf : order.find? (fun q => decide (2 ^ p = 2 ^ q)) with
  | none => simpa using List.find?_eq_none.mp hf p (ho.mem_iff.mpr (List.mem_range.mpr hp))
  | some q =>
    have hpq : 2 ^ p = 2 ^ q := by simpa using List.find?_some hf
    rw [Nat.pow_right_injective (le_refl 2) hpq]

/-- Each check bit is the sum of its positions in the codeword the loop began with. -/
theorem bitOf_foldl_writeHammingBit_two_pow {p : Nat} (hp : p < 7) :
    bitOf (order.foldl writeHammingBit cw) (2 ^ p) = xorOver (hammingPositions p) (bitOf cw) := by
  rw [bitOf_foldl_writeHammingBit order (fun q hq => List.mem_range.mp (ho.mem_iff.mp hq))
    (ho.nodup_iff.mpr List.nodup_range), find?_two_pow_eq_some ho hp]

/-- Every other bit is as before. -/
theorem bitOf_foldl_writeHammingBit_other {j : Nat} (hj : ∀ p < 7, j ≠ 2 ^ p) :
    bitOf (order.foldl writeHammingBit cw) j = bitOf cw j := by
  have hlt : ∀ q ∈ order, q < 7 := fun q hq => List.mem_range.mp (ho.mem_iff.mp hq)
  have hnone : order.find? (fun q => decide (j = 2 ^ q)) = none :=
    List.find?_eq_none.mpr fun q hq => by simpa using hj q (hlt q hq)
  rw [bitOf_foldl_writeHammingBit order hlt (ho.nodup_iff.mpr List.nodup_range), hnone]

/-- The order of the Hamming loop does not matter (R152). -/
theorem foldl_writeHammingBit_perm : order.foldl writeHammingBit cw = writeHammingBits cw := by
  refine eq_of_bitOf_eq fun j _ => ?_
  rw [writeHammingBits]
  by_cases h : ∃ p < 7, j = 2 ^ p
  · obtain ⟨p, hp, rfl⟩ := h
    rw [bitOf_foldl_writeHammingBit_two_pow ho cw hp, bitOf_foldl_writeHammingBit_two_pow hammingExponents_perm cw hp]
  · have hj : ∀ p < 7, j ≠ 2 ^ p := fun p hp hjp => h ⟨p, hp, hjp⟩
    rw [bitOf_foldl_writeHammingBit_other ho cw hj, bitOf_foldl_writeHammingBit_other hammingExponents_perm cw hj]

end HammingOrder

/-! ### The codeword and the ParityByte that ENCODE builds -/

/-- The codeword `ENCODE` extracts its ParityByte from (R150). -/
def encodedCodeword (buf : Buf) : Codeword := writeOverallParity (writeHammingBits (interleaveBits 0#8 buf))

/-- The ParityByte `ENCODE` answers (R150). -/
def parityByte (buf : Buf) : Byte := extractBits (codewordBytes (encodedCodeword buf))

theorem exec_encode_parityByte {buf : Buf} (h : buf.length = 15) (s : State) :
    exec (.encode buf) s = .next (s.respond (.ok (.encode (parityByte buf)))) := exec_encode_ok h s

theorem bitOf_parityByte_slot (buf : Buf) {k : Nat} (hk : k < 8) :
    bitOf (parityByte buf) k = bitOf (encodedCodeword buf) (slotPosition k) := by
  rw [parityByte, bitOf_extractBits _ hk, getBit_codewordBytes _ (lut_slotPosition k hk).1]

/-- The check bits displace no payload bit: the codeword is the interleave of its own ParityByte with the payload. -/
theorem encodedCodeword_eq (buf : Buf) : encodedCodeword buf = interleaveBits (parityByte buf) buf := by
  refine eq_interleaveBits (fun k hk => (bitOf_parityByte_slot buf hk).symm) fun b hb => ?_
  have hzero : payloadPosition b ≠ 0 := payloadPosition_ne_slotPosition hb (k := 0) (by decide)
  have hpow : ∀ p < 7, payloadPosition b ≠ 2 ^ p := fun p hp =>
    payloadPosition_ne_slotPosition hb (Nat.succ_lt_succ hp)
  rw [encodedCodeword, bitOf_writeOverallParity, if_neg hzero, writeHammingBits,
    bitOf_foldl_writeHammingBit_other hammingExponents_perm _ hpow, bitOf_interleaveBits_payload _ _ hb]

/-- Position 0 holds the sum of all other positions. -/
theorem bitOf_encodedCodeword_zero (buf : Buf) : bitOf (encodedCodeword buf) 0 = sumParity (encodedCodeword buf) := by
  rw [encodedCodeword, bitOf_writeOverallParity, if_pos rfl]
  refine xorOver_congr fun i hi => ?_
  have hne : i ≠ 0 := Nat.one_le_iff_ne_zero.mp (List.mem_range'_1.mp hi).1
  rw [bitOf_writeOverallParity, if_neg hne]

/-- Slot `p + 1` is the sum of the payload bits whose position has bit `p` (R152). -/
theorem bitOf_parityByte_succ (buf : Buf) {p : Nat} (hp : p < 7) : bitOf (parityByte buf) (p + 1) =
    xorOver (List.range 120) (fun b => (payloadPosition b).testBit p && getBit buf b) := by
  rw [bitOf_parityByte_slot buf (Nat.succ_lt_succ hp), slotPosition_succ, encodedCodeword, bitOf_writeOverallParity,
    if_neg (Nat.two_pow_pos p).ne', writeHammingBits, bitOf_foldl_writeHammingBit_two_pow hammingExponents_perm _ hp,
    xorOver_hammingPositions_interleaveBits _ _ hp, bitOf_zero, Bool.false_xor]

/-- Slot 0 is the sum of every other bit of the codeword (R153). -/
theorem bitOf_parityByte_zero (buf : Buf) :
    bitOf (parityByte buf) 0 = sumParity (interleaveBits (parityByte buf) buf) := by
  rw [bitOf_parityByte_slot buf (by decide), ← encodedCodeword_eq]
  exact bitOf_encodedCodeword_zero buf

/-- The codeword of a payload and its ParityByte has even weight (R153). -/
theorem overallParity_interleaveBits_parityByte (buf : Buf) :
    overallParity (interleaveBits (parityByte buf) buf) = false := by
  rw [overallParity, ← encodedCodeword_eq, bitOf_encodedCodeword_zero, Bool.xor_self]

theorem decide_and_shiftLeft_ne_zero (i p : Nat) : decide (i &&& (1 <<< p) ≠ 0) = i.testBit p := by
  rw [Nat.one_shiftLeft, Nat.and_two_pow]
  cases i.testBit p <;> simp

/-- Settles O37: both closed forms, the loop in any order, and the even weight. -/
theorem encodeComputesTheCheckBits : Obligations.EncodeComputesTheCheckBits := by
  intro buf s h
  refine ⟨parityByte buf, _, exec_encode_parityByte h s, fun p hp => ?_, ?_,
    fun order ho => foldl_writeHammingBit_perm ho _, exec_interleave_ok _ h s, ?_⟩
  · rw [getBit_singleton _ (Nat.succ_lt_succ hp), bitOf_parityByte_succ buf hp, xorOver_filter]
    simp only [decide_and_shiftLeft_ne_zero]
  · have hslots : xorOver [1, 2, 3, 4, 5, 6, 7] (getBit [parityByte buf]) =
        xorOver (List.range 7) (fun p => bitOf (parityByte buf) (p + 1)) :=
      (xorOver_map (List.range 7) (· + 1) _).trans
        (xorOver_congr fun p hp => getBit_singleton _ (Nat.succ_lt_succ (List.mem_range.mp hp)))
    rw [getBit_singleton _ (by decide), bitOf_parityByte_zero, sumParity_interleaveBits, hslots, Bool.xor_comm]
  · have heven := overallParity_interleaveBits_parityByte buf
    rw [overallParity_eq_countP, decide_eq_false_iff_not] at heven
    exact Nat.mod_two_ne_one.mp heven

/-! ### Linearity and the table of R154 -/

/-- Whether slot `s` counts payload bit `b`: slot `s` of `G(b)` in the table of R154. -/
def checkCoefficient (b : Nat) : Nat → Bit
  | 0 => !xorOver (List.range 7) (fun p => (payloadPosition b).testBit p)
  | p + 1 => (payloadPosition b).testBit p

/-- Every slot of the ParityByte is a sum of payload bits: `r_pb` is the XOR of `G(b)` over the set bits (R154). -/
theorem bitOf_parityByte (buf : Buf) {k : Nat} (hk : k < 8) :
    bitOf (parityByte buf) k = xorOver (List.range 120) (fun b => checkCoefficient b k && getBit buf b) := by
  cases k with
  | succ p => exact bitOf_parityByte_succ buf (Nat.lt_of_succ_lt_succ hk)
  | zero =>
    have hslots : xorOver (List.range 7) (fun p => bitOf (parityByte buf) (p + 1)) = xorOver (List.range 120)
        (fun b => xorOver (List.range 7) (fun p => (payloadPosition b).testBit p) && getBit buf b) := by
      rw [xorOver_congr fun p hp => bitOf_parityByte_succ buf (List.mem_range.mp hp), xorOver_comm]
      exact xorOver_congr fun b _ => xorOver_and _ _ _
    rw [bitOf_parityByte_zero, sumParity_interleaveBits, hslots, ← xorOver_xor]
    refine xorOver_congr fun b _ => ?_
    rw [checkCoefficient]
    cases getBit buf b <;> simp

theorem getBit_xorBuf {a b : Buf} (h : a.length = b.length) (k : Nat) :
    getBit (xorBuf a b) k = xor (getBit a k) (getBit b k) := by
  by_cases hk : k / 8 < a.length
  · simp [getBit, xorBuf, bitOf, hk, ← h]
  · simp [getBit, xorBuf, hk, ← h]

theorem parityByte_xorBuf {a b : Buf} (h : a.length = b.length) :
    parityByte (xorBuf a b) = parityByte a ^^^ parityByte b := by
  refine eq_of_bitOf_eq fun k hk => ?_
  have hxor : bitOf (parityByte a ^^^ parityByte b) k = xor (bitOf (parityByte a) k) (bitOf (parityByte b) k) :=
    BitVec.getMsbD_xor
  rw [hxor, bitOf_parityByte _ hk, bitOf_parityByte _ hk, bitOf_parityByte _ hk, ← xorOver_xor]
  refine xorOver_congr fun i _ => ?_
  rw [getBit_xorBuf h, Bool.and_xor_distrib_left]

/-- The zero payload is its own XOR with itself. -/
theorem parityByte_zeros : parityByte (zeros 15) = 0#8 := by
  have hself : xorBuf (zeros 15) (zeros 15) = zeros 15 := by decide
  rw [← hself, parityByte_xorBuf rfl, BitVec.xor_self]

/-- Settles O38: every slot is a sum of payload bits, and sums are linear. -/
theorem encodeIsLinear : Obligations.EncodeIsLinear := by
  refine ⟨fun a b s ha hb => ⟨_, _, exec_encode_parityByte ha s, exec_encode_parityByte hb s, ?_⟩, fun s => ?_⟩
  · have hlen : (xorBuf a b).length = 15 := by simp [xorBuf, ha, hb]
    rw [exec_encode_parityByte hlen, parityByte_xorBuf (ha.trans hb.symm)]
  · rw [exec_encode_parityByte rfl, parityByte_zeros]

/-- The payload with one set bit has that bit and no other. -/
theorem getBit_setBit_zeros (b : Nat) {j : Nat} (hj : j < 120) :
    getBit (setBit (zeros 15) b true) j = decide (j = b) := by
  have hzero : getBit (zeros 15) j = false := by
    have hd : j / 8 < 15 := by omega
    simp [getBit, zeros, hd, -List.reduceReplicate]
  rw [getBit_setBit _ _ _ hj, hzero]
  by_cases h : j = b <;> simp [h]

/-- The ParityByte of the payload with one set bit is that bit's column of coefficients. -/
theorem bitOf_parityByte_setBit_zeros {b : Nat} (hb : b < 120) {k : Nat} (hk : k < 8) :
    bitOf (parityByte (setBit (zeros 15) b true)) k = checkCoefficient b k := by
  have hself := getBit_setBit_zeros b hb
  rw [bitOf_parityByte _ hk, xorOver_single List.nodup_range (List.mem_range.mpr hb), hself, decide_eq_true rfl,
    Bool.and_true]
  intro j hj hne
  rw [getBit_setBit_zeros b (List.mem_range.mp hj), decide_eq_false hne, Bool.and_false]

/-- Settles O39: slot 0 counts a bit when an even number of the other slots do. -/
theorem encodeOfASingleBit : Obligations.EncodeOfASingleBit := by
  intro b s hb
  refine ⟨_, exec_encode_parityByte (by simp [zeros]) s, fun p hp => ?_, ?_⟩
  · rw [getBit_singleton _ (Nat.succ_lt_succ hp), bitOf_parityByte_setBit_zeros hb (Nat.succ_lt_succ hp),
      checkCoefficient]
  · rw [getBit_singleton _ (by decide), bitOf_parityByte_setBit_zeros hb (by decide), checkCoefficient,
      xorOver_eq_countP, ← decide_not]
    exact decide_eq_decide.mpr Nat.mod_two_ne_one

end Sys2Proof.Machine
end

section
/-! The frame of every operation, and DECODE: what it reports and how it classifies (spec/43_decode.md R170 to R178). -/

namespace Sys2Proof.Machine

/-- Settles O9: an operation gives one response (`exec_eq`), and `respond` writes no other field. -/
theorem operationsChangeOnlyTheResponse : Obligations.OperationsChangeOnlyTheResponse := by
  intro i s t h
  rw [exec_eq] at h
  cases h
  exact ⟨rfl, rfl, rfl, rfl, _, rfl⟩

/-! ### Two responses to one state -/

/-- The response can be read off the state it was given to. -/
theorem next_respond_inj {s : State} {r r' : Response}
    (h : (.next (s.respond r) : StepOutcome) = .next (s.respond r')) : r = r' := by
  injection h with h
  exact Option.some.inj (congrArg (fun t : State => t.response) h)

/-- An `INTERLEAVE` that completes answers the bytes of the codeword. -/
theorem eq_of_exec_interleave {pb : Byte} {buf cw : Buf} {s : State} (hlen : buf.length = 15)
    (h : exec (.interleave pb buf) s = .next (s.respond (.ok (.interleave cw)))) :
    cw = codewordBytes (interleaveBits pb buf) := by
  rw [exec_interleave_ok pb hlen s] at h
  cases next_respond_inj h
  rfl

/-- An `ENCODE` that completes answers the payload's ParityByte. -/
theorem eq_of_exec_encode {pb : Byte} {buf : Buf} {s : State} (hlen : buf.length = 15)
    (h : exec (.encode buf) s = .next (s.respond (.ok (.encode pb)))) : pb = parityByte buf := by
  rw [exec_encode_parityByte hlen s] at h
  cases next_respond_inj h
  rfl

/-! ### The answer of DECODE -/

/-- `DECODE` of a 15-byte payload answers what the codeword's syndrome and overall parity are classified as. -/
theorem exec_decode_of {pb : Byte} {buf : Buf} {syn idx : BitVec 7} {ovp : Bit} {cls : Classification}
    (hlen : buf.length = 15) (hsyn : syndrome (interleaveBits pb buf) = syn)
    (hovp : overallParity (interleaveBits pb buf) = ovp) (hcls : classify syn ovp = (cls, idx)) (s : State) :
    exec (.decode pb buf) s = .next (s.respond (.ok (.decode cls idx syn ovp))) := by
  rw [exec_decode_ok pb hlen, decodeResult, hsyn, hovp, hcls]

/-- `DECODE` of any other payload raises `InvalidPayloadSize` (R175). -/
theorem exec_decode_wrong_length (pb : Byte) {buf : Buf} (hlen : buf.length ≠ 15) (s : State) :
    exec (.decode pb buf) s = .next (s.respond (.error .invalidPayloadSize)) := by
  rw [exec_eq]
  simp [instrResponse, instrAnswer, decodeAnswer, checkParity, getHammingInterlacedData_error _ hlen, toResponse,
    Except.map]

/-- Whatever the payload, a result of `DECODE` is the classification of the syndrome and overall parity in it. -/
theorem classify_of_exec_decode {pb : Byte} {buf : Buf} {s t : State} {cls : Classification} {idx syn : BitVec 7}
    {ovp : Bit} (h : exec (.decode pb buf) s = .next t) (hr : t.response = some (.ok (.decode cls idx syn ovp))) :
    classify syn ovp = (cls, idx) := by
  by_cases hlen : buf.length = 15
  · rw [exec_decode_ok pb hlen] at h
    cases h
    cases hr
    rfl
  · rw [exec_decode_wrong_length pb hlen] at h
    cases h
    cases hr

/-- Settles O43: a 15-byte payload gets a result, and a result's status is `OK`. -/
theorem decodeNeverRaisesForAClassification : Obligations.DecodeNeverRaisesForAClassification := by
  intro pb buf s h
  exact ⟨_, _, _, _, exec_decode_ok pb h s, rfl⟩

/-! ### The classification -/

theorem classify_zero_even : classify 0#7 false = (.valid, 0#7) := rfl

theorem classify_zero_odd : classify 0#7 true = (.nonRecoverableError, 0#7) := rfl

theorem classify_nonzero_even {syn : BitVec 7} (h : syn ≠ 0#7) : classify syn false = (.nonRecoverableError, 0#7) := by
  simp [classify, h]

/-- A syndrome that is the position of a payload bit names that bit. -/
theorem classify_payloadPosition {syn : BitVec 7} {b : Nat} (hb : b < 120) (h : syn.toNat = payloadPosition b) :
    classify syn true = (.recoverableErrorInData, BitVec.ofNat 7 b) := by
  obtain ⟨_, hkind, htarget⟩ := lut_payloadPosition b hb
  have hsyn : syn ≠ 0#7 := by
    rintro rfl
    exact payloadPosition_ne_slotPosition hb (k := 0) (by decide) h.symm
  simp [classify, hsyn, h, hkind, htarget]

/-- A syndrome that is the position of one of the slots 1 to 7 names that slot. -/
theorem classify_slotPosition {syn : BitVec 7} {k : Nat} (h1 : 1 ≤ k) (h7 : k ≤ 7) (h : syn.toNat = slotPosition k) :
    classify syn true = (.recoverableErrorInParity, BitVec.ofNat 7 k) := by
  obtain ⟨_, hkind, htarget⟩ := lut_slotPosition k (Nat.lt_succ_of_le h7)
  have hsyn : syn ≠ 0#7 := by
    rintro rfl
    rw [slotPosition, if_neg (Nat.one_le_iff_ne_zero.mp h1)] at h
    exact (Nat.two_pow_pos _).ne h
  simp [classify, hsyn, h, hkind, htarget]

/-- A nonzero syndrome is the position of a slot other than 0 or of a payload bit. -/
theorem syndrome_position_cases {syn : BitVec 7} (h : syn ≠ 0#7) :
    (∃ k, 1 ≤ k ∧ k ≤ 7 ∧ syn.toNat = slotPosition k) ∨ ∃ b < 120, syn.toNat = payloadPosition b := by
  rcases List.mem_append.mp (positions_perm.mem_iff.mpr (mem_positions.mpr syn.isLt)) with hmem | hmem
  · obtain ⟨k, hk, hpos⟩ := List.mem_map.mp hmem
    refine .inl ⟨k, Nat.one_le_iff_ne_zero.mpr ?_, Nat.le_of_lt_succ (List.mem_range.mp hk), hpos.symm⟩
    rintro rfl
    exact h (BitVec.eq_of_toNat_eq hpos.symm)
  · obtain ⟨b, hb, hpos⟩ := List.mem_map.mp hmem
    exact .inr ⟨b, List.mem_range.mp hb, hpos.symm⟩

/-- A position fits `r_syn`, and so a slot's or payload bit's number fits `r_index`. -/
theorem toNat_ofNat_position {i : Nat} (hi : i < 128) : (BitVec.ofNat 7 i).toNat = i :=
  (BitVec.toNat_ofNat i 7).trans (Nat.mod_eq_of_lt hi)

/-- Settles O41: each row of R173 is one of the cases of `classify`; a nonzero syndrome is a position, where the table
holds the slot or payload bit that is reported. -/
theorem decodeClassifiesBySyndromeAndParity : Obligations.DecodeClassifiesBySyndromeAndParity := by
  intro pb buf s h
  refine ⟨_, _, _, _, exec_decode_ok pb h s, ?_⟩
  generalize syndrome (interleaveBits pb buf) = syn
  generalize overallParity (interleaveBits pb buf) = ovp
  refine ⟨?_, ?_, ?_, ?_, ?_⟩
  · rintro rfl rfl
    rw [classify_zero_even]
  · rintro hsyn rfl hneg
    rcases syndrome_position_cases hsyn with ⟨k, h1, h7, hpos⟩ | ⟨b, hb, hpos⟩
    · rw [classify_slotPosition h1 h7 hpos, hpos, lut_slotPosition_eq k (by omega), toNat_ofNat_position (by omega)]
      exact ⟨rfl, by omega⟩
    · rw [hpos, lut_payloadPosition_eq hb] at hneg
      omega
  · rintro hsyn rfl hnonneg
    rcases syndrome_position_cases hsyn with ⟨k, h1, h7, hpos⟩ | ⟨b, hb, hpos⟩
    · rw [hpos, lut_slotPosition_eq k (by omega)] at hnonneg
      omega
    · rw [classify_payloadPosition hb hpos, hpos, lut_payloadPosition_eq hb, toNat_ofNat_position (by omega)]
      exact ⟨rfl, rfl⟩
  · rintro rfl rfl
    rw [classify_zero_odd]
  · rintro hsyn rfl
    rw [classify_nonzero_even hsyn]

/-- The index of a recoverable class is that of a payload bit or of one of the slots 1 to 7, and the syndrome is its
position (R177). -/
theorem classify_recoverable {syn idx : BitVec 7} {ovp : Bit} {cls : Classification}
    (h : classify syn ovp = (cls, idx)) :
    (cls = .recoverableErrorInData → idx.toNat < 120 ∧ syn.toNat = payloadPosition idx.toNat) ∧
    (cls = .recoverableErrorInParity → 1 ≤ idx.toNat ∧ idx.toNat ≤ 7 ∧ syn.toNat = slotPosition idx.toNat) := by
  by_cases hsyn : syn = 0#7
  · rw [hsyn] at h
    cases ovp with
    | false => cases classify_zero_even.symm.trans h; simp
    | true => cases classify_zero_odd.symm.trans h; simp
  · cases ovp with
    | false => cases (classify_nonzero_even hsyn).symm.trans h; simp
    | true =>
      rcases syndrome_position_cases hsyn with ⟨k, h1, h7, hpos⟩ | ⟨b, hb, hpos⟩
      · cases (classify_slotPosition h1 h7 hpos).symm.trans h
        rw [toNat_ofNat_position (by omega)]
        simp [h1, h7, hpos]
      · cases (classify_payloadPosition hb hpos).symm.trans h
        rw [toNat_ofNat_position (by omega)]
        simp [hb, hpos]

/-- With odd parity a nonzero syndrome is classed recoverable at the position it is. -/
theorem classify_odd_names_syndrome {syn : BitVec 7} (h : syn ≠ 0#7) :
    ((classify syn true).1 = .recoverableErrorInData ∧ payloadPosition (classify syn true).2.toNat = syn.toNat) ∨
    ((classify syn true).1 = .recoverableErrorInParity ∧ slotPosition (classify syn true).2.toNat = syn.toNat) := by
  rcases syndrome_position_cases h with ⟨k, h1, h7, hpos⟩ | ⟨b, hb, hpos⟩
  · rw [classify_slotPosition h1 h7 hpos, toNat_ofNat_position (by omega)]
    exact .inr ⟨rfl, hpos.symm⟩
  · rw [classify_payloadPosition hb hpos, toNat_ofNat_position (by omega)]
    exact .inl ⟨rfl, hpos.symm⟩

/-- Settles O42, from the position that a recoverable class's index names. -/
theorem decodeIndexRanges : Obligations.DecodeIndexRanges := by
  intro pb buf s t cls idx syn ovp h hr
  obtain ⟨hdata, hparity⟩ := classify_recoverable (classify_of_exec_decode h hr)
  refine ⟨fun hcls => Nat.le_of_lt_succ (hdata hcls).1, fun hcls => ?_⟩
  obtain ⟨h1, h7, hpos⟩ := hparity hcls
  refine ⟨h1, h7, ?_⟩
  rw [hpos, slotPosition, if_neg (Nat.one_le_iff_ne_zero.mp h1)]

/-! ### Syndrome and overall parity as sums over positions -/

/-- The syndrome over a list of positions as the XOR of the listed numbers whose bit is 1. -/
theorem syndromeOver_toNat {is : List Nat} (his : ∀ i ∈ is, i < 128) (cw : Codeword) :
    (syndromeOver is cw).toNat = (is.filter (bitOf cw)).foldl (fun acc i => acc ^^^ i) 0 := by
  rw [List.foldl_eq_foldr]
  induction is with
  | nil => rfl
  | cons i is ih =>
    have hi : i < 128 := his i (by simp)
    rw [syndromeOver, BitVec.toNat_xor, ih fun j hj => his j (by simp [hj])]
    cases hb : bitOf cw i <;> simp [hb, hi]

/-- The overall parity is the sum over all 128 positions (R172). -/
theorem overallParity_eq_xorOver (cw : Codeword) : overallParity cw = xorOver positions (bitOf cw) := by
  rw [positions_eq_cons, xorOver_cons, overallParity, sumParity]

section Bits
variable {cw : Codeword} {f : Nat → Bit} (hf : ∀ i < 128, bitOf cw i = f i)
include hf

/-- The syndrome of a codeword by its bits (R171). -/
theorem syndrome_toNat : (syndrome cw).toNat = ((List.range' 1 127).filter f).foldl (fun acc i => acc ^^^ i) 0 := by
  have hlt : ∀ i ∈ List.range' 1 127, i < 128 := fun i hi => (List.mem_range'_1.mp hi).2
  rw [← List.filter_congr fun i hi => hf i (hlt i hi)]
  exact syndromeOver_toNat hlt cw

/-- The overall parity of a codeword by its bits: the parity of its weight (R172). -/
theorem overallParity_eq_decide : overallParity cw = decide ((List.range 128).countP f % 2 = 1) := by
  rw [overallParity_eq_xorOver, xorOver_congr fun i hi => hf i (mem_positions.mp hi)]
  exact xorOver_eq_countP _ _

end Bits

/-- Settles O40: `INTERLEAVE` answers the bits of the codeword that `DECODE` sums. -/
theorem decodeReportsSyndromeAndParity : Obligations.DecodeReportsSyndromeAndParity := by
  intro pb buf s h
  have hbits : ∀ i < 128, bitOf (interleaveBits pb buf) i = getBit (codewordBytes (interleaveBits pb buf)) i :=
    fun _ hi => (getBit_codewordBytes _ hi).symm
  exact ⟨_, _, _, _, _, exec_interleave_ok pb h s, exec_decode_ok pb h s, syndrome_toNat hbits,
    overallParity_eq_decide hbits⟩

end Sys2Proof.Machine
end

section
/-! DECODE of a changed pair: syndrome and overall parity are those of the error vector alone, because both are linear
and 0 on a pair that ENCODE made (spec/43_decode.md R179, R180). -/

namespace Sys2Proof.Machine

/-! ### Linearity -/

theorem bitOf_xor {w : Nat} (x y : BitVec w) (k : Nat) : bitOf (x ^^^ y) k = xor (bitOf x k) (bitOf y k) :=
  BitVec.getMsbD_xor

theorem syndrome_xor (x y : Codeword) : syndrome (x ^^^ y) = syndrome x ^^^ syndrome y := by
  refine BitVec.eq_of_getLsbD_eq fun p hp => ?_
  rw [BitVec.getLsbD_xor, syndrome_getLsbD _ hp, syndrome_getLsbD _ hp, syndrome_getLsbD _ hp, ← xorOver_xor]
  exact xorOver_congr fun i _ => bitOf_xor x y i

theorem overallParity_xor (x y : Codeword) :
    overallParity (x ^^^ y) = xor (overallParity x) (overallParity y) := by
  simp only [overallParity_eq_xorOver, ← xorOver_xor]
  exact xorOver_congr fun i _ => bitOf_xor x y i

/-! ### A pair that ENCODE made -/

/-- Each check bit cancels its own Hamming sum (R152). -/
theorem syndrome_interleaveBits_parityByte (d : Buf) : syndrome (interleaveBits (parityByte d) d) = 0#7 := by
  refine BitVec.eq_of_getLsbD_eq fun p hp => ?_
  rw [syndrome_getLsbD _ hp, xorOver_hammingPositions_interleaveBits _ _ hp, bitOf_parityByte_succ d hp, Bool.xor_self,
    BitVec.getLsbD_zero]

/-- Settles O45, from syndrome 0 and even weight. -/
theorem encodeThenDecodeIsValid : Obligations.EncodeThenDecodeIsValid := by
  intro d s h
  exact ⟨_, _, exec_encode_parityByte h s, exec_decode_of h (syndrome_interleaveBits_parityByte d)
    (overallParity_interleaveBits_parityByte d) classify_zero_even s⟩

/-- `DECODE` of a pair whose codeword differs from one made by `ENCODE` in the bits of `e` answers the classification of
the syndrome and overall parity of `e` (R179). -/
theorem exec_decode_errorVector {d d' : Buf} {pb' : Byte} {e : Codeword} {syn idx : BitVec 7} {ovp : Bit}
    {cls : Classification} (hlen : d'.length = 15)
    (he : interleaveBits pb' d' = interleaveBits (parityByte d) d ^^^ e) (hsyn : syndrome e = syn)
    (hovp : overallParity e = ovp) (hcls : classify syn ovp = (cls, idx)) (s : State) :
    exec (.decode pb' d') s = .next (s.respond (.ok (.decode cls idx syn ovp))) := by
  refine exec_decode_of hlen ?_ ?_ hcls s
  · rw [he, syndrome_xor, syndrome_interleaveBits_parityByte, hsyn, BitVec.zero_xor]
  · rw [he, overallParity_xor, overallParity_interleaveBits_parityByte, hovp, Bool.false_xor]

/-! ### Error vectors of one bit -/

theorem bitOf_bitMask {w k : Nat} (hk : k < w) {j : Nat} (hj : j < w) : bitOf (bitMask w k) j = decide (j = k) := by
  have hk' : w - 1 - k < w := by omega
  have hjk : w - 1 - k = w - 1 - j ↔ j = k := by omega
  simp only [bitOf, bitMask, BitVec.getMsbD_eq_getLsbD, BitVec.getLsbD_twoPow, hj, hk', hjk, decide_true,
    Bool.true_and]

/-- A sum that counts one position alone. -/
theorem xorOver_positions_bitMask {i : Nat} (hi : i < 128) (f : Nat → Bit) :
    xorOver positions (fun j => f j && bitOf (bitMask 128 i) j) = f i := by
  have hn : positions.Nodup := List.nodup_range
  rw [xorOver_single hn (mem_positions.mpr hi), bitOf_bitMask hi hi, decide_eq_true rfl, Bool.and_true]
  intro j hj hne
  rw [bitOf_bitMask hi (mem_positions.mp hj), decide_eq_false hne, Bool.and_false]

/-- The syndrome of a single flip is its position, 0 for position 0. -/
theorem syndrome_bitMask {i : Nat} (hi : i < 128) : syndrome (bitMask 128 i) = BitVec.ofNat 7 i := by
  refine BitVec.eq_of_getLsbD_eq fun p hp => ?_
  have hsum : xorOver sumPositions (fun j => j.testBit p && bitOf (bitMask 128 i) j) =
      xorOver positions (fun j => j.testBit p && bitOf (bitMask 128 i) j) := by
    rw [positions_eq_cons, xorOver_cons, Nat.zero_testBit, Bool.false_and, Bool.false_xor]
  rw [syndrome_getLsbD _ hp, hammingPositions_eq, xorOver_filter, hsum, xorOver_positions_bitMask hi,
    BitVec.getLsbD_ofNat, decide_eq_true hp, Bool.true_and]

/-- The weight of a single flip is odd. -/
theorem overallParity_bitMask {i : Nat} (hi : i < 128) : overallParity (bitMask 128 i) = true := by
  rw [overallParity_eq_xorOver]
  simpa only [Bool.true_and] using xorOver_positions_bitMask hi fun _ => true

theorem payloadPosition_inj {a b : Nat} (ha : a < 120) (hb : b < 120) :
    payloadPosition a = payloadPosition b ↔ a = b := by
  refine ⟨fun h => ?_, congrArg _⟩
  have hlut := congrArg lut h
  rw [lut_payloadPosition_eq ha, lut_payloadPosition_eq hb] at hlut
  exact Int.ofNat.inj hlut

theorem slotPosition_inj {k l : Nat} (hk : k < 8) (hl : l < 8) : slotPosition k = slotPosition l ↔ k = l := by
  refine ⟨fun h => ?_, congrArg _⟩
  have hlut := congrArg lut h
  rw [lut_slotPosition_eq k hk, lut_slotPosition_eq l hl] at hlut
  omega

/-- A flip of payload bit `b` is a flip of position `Q(b)`. -/
theorem interleaveBits_flip_payload (pb : Byte) {d : Buf} (hlen : d.length = 15) {b : Nat} (hb : b < 120) :
    interleaveBits pb (setBit d b (!getBit d b)) = interleaveBits pb d ^^^ bitMask 128 (payloadPosition b) := by
  have hQ := (lut_payloadPosition b hb).1
  refine (eq_interleaveBits (fun k hk => ?_) fun c hc => ?_).symm
  · rw [bitOf_xor, bitOf_bitMask hQ (lut_slotPosition k hk).1, bitOf_interleaveBits_slot _ _ hk,
      decide_eq_false (payloadPosition_ne_slotPosition hb hk).symm, Bool.xor_false]
  · rw [bitOf_xor, bitOf_bitMask hQ (lut_payloadPosition c hc).1, bitOf_interleaveBits_payload _ _ hc,
      getBit_setBit _ _ _ (by omega)]
    by_cases h : c = b <;> simp [payloadPosition_inj hc hb, h]

/-- A flip of slot `k` is a flip of position `P(k)`. -/
theorem interleaveBits_flip_slot (pb : Byte) (d : Buf) {k : Nat} (hk : k < 8) :
    interleaveBits (pb ^^^ (0x80#8 >>> k)) d = interleaveBits pb d ^^^ bitMask 128 (slotPosition k) := by
  have hP := (lut_slotPosition k hk).1
  refine (eq_interleaveBits (fun l hl => ?_) fun b hb => ?_).symm
  · rw [bitOf_xor, bitOf_bitMask hP (lut_slotPosition l hl).1, bitOf_interleaveBits_slot _ _ hl, bitOf_xor,
      ← bitMask_byte k hk, bitOf_bitMask hk hl]
    simp only [slotPosition_inj hl hk]
  · rw [bitOf_xor, bitOf_bitMask hP (lut_payloadPosition b hb).1, bitOf_interleaveBits_payload _ _ hb,
      decide_eq_false (payloadPosition_ne_slotPosition hb hk), Bool.xor_false]

/-- Settles O46: the error vector is the one position `Q(b)`. -/
theorem oneDataFlipIsLocated : Obligations.OneDataFlipIsLocated := by
  intro d b s h hb
  have hQ := (lut_payloadPosition b hb).1
  exact ⟨_, exec_encode_parityByte h s, exec_decode_errorVector ((setBit_length _ _ _).trans h)
    (interleaveBits_flip_payload _ h hb) (syndrome_bitMask hQ) (overallParity_bitMask hQ)
    (classify_payloadPosition hb (toNat_ofNat_position hQ)) s⟩

/-- Settles O47: the error vector is the one position `P(k)`. -/
theorem oneCheckFlipIsLocated : Obligations.OneCheckFlipIsLocated := by
  intro d k s h h1 h7
  have hk : k < 8 := Nat.lt_succ_of_le h7
  have hP := (lut_slotPosition k hk).1
  have hpow : slotPosition k = 2 ^ (k - 1) := if_neg (Nat.one_le_iff_ne_zero.mp h1)
  rw [← hpow]
  exact ⟨_, exec_encode_parityByte h s, exec_decode_errorVector h (interleaveBits_flip_slot _ d hk)
    (syndrome_bitMask hP) (overallParity_bitMask hP) (classify_slotPosition h1 h7 (toNat_ofNat_position hP)) s⟩

/-- Settles O48: a flip of slot 0 is one of position 0, which no syndrome counts. -/
theorem overallParityFlipIsNonRecoverable : Obligations.OverallParityFlipIsNonRecoverable := by
  refine ⟨fun pb buf s t cls idx h hr => ?_, fun d s h => ⟨_, 0#7, exec_encode_parityByte h s, ?_⟩⟩
  · have hcls := classify_zero_odd.symm.trans (classify_of_exec_decode h hr)
    exact (congrArg Prod.fst hcls).symm
  · exact exec_decode_errorVector h (interleaveBits_flip_slot _ d (k := 0) (by decide)) (syndrome_bitMask (by decide))
      (overallParity_bitMask (by decide)) classify_zero_odd s

/-! ### Any error vector -/

/-- The changed codeword is the one made by `ENCODE` and an error vector, whose bits are where the two differ. -/
theorem exists_errorVector {d d' : Buf} {pb pb' : Byte} {cw cw' : Buf} {s : State} (hd : d.length = 15)
    (hd' : d'.length = 15) (henc : exec (.encode d) s = .next (s.respond (.ok (.encode pb))))
    (hint : exec (.interleave pb d) s = .next (s.respond (.ok (.interleave cw))))
    (hint' : exec (.interleave pb' d') s = .next (s.respond (.ok (.interleave cw')))) :
    ∃ e : Codeword, interleaveBits pb' d' = interleaveBits (parityByte d) d ^^^ e ∧
      ∀ i < 128, bitOf e i = (getBit cw' i != getBit cw i) := by
  obtain rfl := eq_of_exec_encode hd henc
  obtain rfl := eq_of_exec_interleave hd hint
  obtain rfl := eq_of_exec_interleave hd' hint'
  refine ⟨interleaveBits pb' d' ^^^ interleaveBits (parityByte d) d, ?_, fun i hi => ?_⟩
  · rw [BitVec.xor_comm (interleaveBits pb' d'), ← BitVec.xor_assoc, BitVec.xor_self, BitVec.zero_xor]
  · rw [getBit_codewordBytes _ hi, getBit_codewordBytes _ hi, bitOf_xor]

/-- Settles O50, from the bits of the error vector. -/
theorem syndromeAndParityOfTheErrorVector : Obligations.SyndromeAndParityOfTheErrorVector := by
  intro d d' pb pb' cw cw' s hd hd' henc hint hint'
  obtain ⟨e, he, hbits⟩ := exists_errorVector hd hd' henc hint hint'
  refine ⟨_, _, _, _, exec_decode_errorVector hd' he rfl rfl Prod.mk.eta.symm s, syndrome_toNat hbits, ?_⟩
  rw [← List.countP_eq_length_filter]
  exact overallParity_eq_decide hbits

/-- Two different positions have a nonzero XOR. -/
theorem ofNat_xor_ne_zero {a b : Nat} (ha : a < 128) (hb : b < 128) (hab : a ≠ b) :
    BitVec.ofNat 7 (a ^^^ b) ≠ 0#7 := by
  rw [BitVec.ofNat_xor, Ne, BitVec.xor_eq_zero_iff]
  intro h
  have hnat := congrArg BitVec.toNat h
  rw [toNat_ofNat_position ha, toNat_ofNat_position hb] at hnat
  exact hab hnat

/-- Settles O49: the error vector is two single flips, whose positions do not cancel and whose weights do. -/
theorem everyDoubleFlipIsNonRecoverable : Obligations.EveryDoubleFlipIsNonRecoverable := by
  intro d d' pb pb' cw cw' a b s hd hd' henc hint hint' ha hb hab hflips
  obtain ⟨e, he, hbits⟩ := exists_errorVector hd hd' henc hint hint'
  have hvec : e = bitMask 128 a ^^^ bitMask 128 b := by
    refine eq_of_bitOf_eq fun i hi => ?_
    have hdiff : (getBit cw' i != getBit cw i) = decide (i = a ∨ i = b) := by
      rw [Bool.eq_iff_iff, bne_iff_ne, decide_eq_true_iff, hflips i hi]
    rw [hbits i hi, hdiff, bitOf_xor, bitOf_bitMask ha hi, bitOf_bitMask hb hi]
    by_cases h : i = a <;> simp [h, hab]
  have hsyn : syndrome e = BitVec.ofNat 7 (a ^^^ b) := by
    rw [hvec, syndrome_xor, syndrome_bitMask ha, syndrome_bitMask hb, BitVec.ofNat_xor]
  have hovp : overallParity e = false := by
    rw [hvec, overallParity_xor, overallParity_bitMask ha, overallParity_bitMask hb, Bool.xor_self]
  exact ⟨_, exec_decode_errorVector hd' he hsyn hovp (classify_nonzero_even (ofNat_xor_ne_zero ha hb hab)) s⟩

/-- Settles O51: the number of flips decides the overall parity, and the rest is the classification. -/
theorem manyFlipsAreClassedByTheirSums : Obligations.ManyFlipsAreClassedByTheirSums := by
  intro d d' pb pb' cw cw' s hd hd' henc hint hint'
  obtain ⟨e, he, hbits⟩ := exists_errorVector hd hd' henc hint hint'
  refine ⟨_, _, _, _, _, rfl, exec_decode_errorVector hd' he rfl (overallParity_eq_decide hbits)
    Prod.mk.eta.symm s, ?_, ?_, ?_⟩
  · intro hodd hsyn
    rw [decide_eq_true hodd]
    exact classify_odd_names_syndrome hsyn
  · intro heven hsyn
    rw [decide_eq_false (Nat.mod_two_ne_one.mpr heven), classify_nonzero_even hsyn]
  · intro heven hsyn
    rw [decide_eq_false (Nat.mod_two_ne_one.mpr heven), hsyn, classify_zero_even]

end Sys2Proof.Machine
end

section
/-! The errors: the operation and the condition each one belongs to, and its status number; and the idle block and the
host's actions, where nothing is raised (spec/60_exceptions.md R200 to R219). -/

namespace Sys2Proof.Machine

/-! ### The operations whose check fails -/

/-- `ENCODE` of a payload not of 15 bytes (R201). -/
theorem exec_encode_wrong_length {buf : Buf} (h : buf.length ≠ 15) (s : State) :
    exec (.encode buf) s = .next (s.respond (.error .invalidPayloadSize)) := by
  rw [exec_eq]
  simp [instrResponse, instrAnswer, encodeAnswer, calculateParity_error h, toResponse, Except.map]

/-- `INTERLEAVE` of a payload not of 15 bytes (R201). -/
theorem exec_interleave_wrong_length (pb : Byte) {buf : Buf} (h : buf.length ≠ 15) (s : State) :
    exec (.interleave pb buf) s = .next (s.respond (.error .invalidPayloadSize)) := by
  rw [exec_eq]
  simp [instrResponse, instrAnswer, interleaveAnswer, getHammingInterlacedData_error _ h, toResponse, Except.map]

/-- `EXTRACT` of a codeword not of 16 bytes (R202). -/
theorem exec_extract_wrong_length {buf : Buf} (h : buf.length ≠ 16) (s : State) :
    exec (.extract buf) s = .next (s.respond (.error .invalidDataSize)) := by
  rw [exec_eq]
  simp [instrResponse, instrAnswer, extractAnswer, setParity_error h, toResponse, Except.map]

/-- The reserved operation, which has no check to pass (R204). -/
theorem exec_reserved (s : State) : exec .reserved s = .next (s.respond (.error .illegalOperation)) :=
  exec_eq .reserved s

/-! ### Which operation raises which error -/

section Raised
variable {i : Instr} {s t : State} {e e' : ErrorCode}

/-- Where the operation raises one error, no other is answered. -/
theorem error_eq_of_exec (h : exec i s = .next t) (hr : t.response = some (.error e))
    (hraise : exec i s = .next (s.respond (.error e'))) : e = e' := by
  rw [hraise] at h
  cases h
  cases hr
  rfl

/-- An operation that raises one error under a condition, and answers a result otherwise, answers no error but that one,
under that condition. -/
theorem error_of_check {fails : Prop} (h : exec i s = .next t) (hr : t.response = some (.error e))
    (hraise : fails → exec i s = .next (s.respond (.error e')))
    (hresult : ¬fails → ∃ r, exec i s = .next (s.respond (.ok r))) : e = e' ∧ fails := by
  by_cases hf : fails
  · exact ⟨error_eq_of_exec h hr (hraise hf), hf⟩
  · obtain ⟨r, hok⟩ := hresult hf
    rw [hok] at h
    cases h
    cases hr

end Raised

/-- Settles O21, by the operation's own check: where it fails its one error is raised, where it passes there is a
result. The reserved operation always raises its error. -/
theorem eachOperationRaisesOnlyItsOwnError : Obligations.EachOperationRaisesOnlyItsOwnError := by
  intro i s t e h hr
  cases i with
  | encode buf =>
    exact error_of_check h hr (exec_encode_wrong_length · s) fun hn => ⟨_, exec_encode_ok (not_not.mp hn) s⟩
  | decode pb buf =>
    exact error_of_check h hr (exec_decode_wrong_length pb · s) fun hn => ⟨_, exec_decode_ok pb (not_not.mp hn) s⟩
  | bitget buf idx =>
    exact error_of_check h hr (exec_bitget_past s) fun hn => ⟨_, exec_bitget_ok buf idx s (Nat.lt_of_not_le hn)⟩
  | bitset buf idx val =>
    exact error_of_check h hr (exec_bitset_past val s) fun hn => ⟨_, exec_bitset_ok buf idx val s (Nat.lt_of_not_le hn)⟩
  | interleave pb buf =>
    exact error_of_check h hr (exec_interleave_wrong_length pb · s)
      fun hn => ⟨_, exec_interleave_ok pb (not_not.mp hn) s⟩
  | extract buf =>
    exact error_of_check h hr (exec_extract_wrong_length · s) fun hn => ⟨_, exec_extract_ok (not_not.mp hn) s⟩
  | lutrd idx =>
    exact error_of_check h hr (exec_lutrd_past s) fun hn => ⟨_, exec_lutrd_ok idx s (Nat.lt_of_not_le hn)⟩
  | reserved => exact error_eq_of_exec h hr (exec_reserved s)

/-- Settles O22: the three operations that take a payload make the same check. -/
theorem wrongPayloadLengthIsAnError : Obligations.WrongPayloadLengthIsAnError := fun pb _ s h =>
  ⟨exec_encode_wrong_length h s, exec_decode_wrong_length pb h s, exec_interleave_wrong_length pb h s, rfl⟩

/-- Settles O23: the one error that `ENCODE` can answer is `InvalidPayloadSize`. -/
theorem wrongCodewordLengthIsAnError : Obligations.WrongCodewordLengthIsAnError := by
  refine ⟨fun buf s h => ⟨exec_extract_wrong_length h s, rfl⟩, fun buf s t h hr => ?_⟩
  obtain ⟨hne, -⟩ := eachOperationRaisesOnlyItsOwnError _ _ _ _ h hr
  cases hne

/-- Settles O24, by the out-of-range answers of `BITGET` and `BITSET`. -/
theorem bitIndexPastTheEndIsAnError : Obligations.BitIndexPastTheEndIsAnError := fun _ _ val s h =>
  ⟨exec_bitget_past s h, exec_bitset_past val s h, rfl⟩

/-- Settles O25, by the out-of-range answer of `LUTRD`. -/
theorem lutIndexPastTheEndIsAnError : Obligations.LutIndexPastTheEndIsAnError := fun _ s h =>
  ⟨exec_lutrd_past s h, rfl⟩

/-- Settles O26: the row of `op = 111` reads no operand. -/
theorem reservedOperationIsIllegal : Obligations.ReservedOperationIsIllegal := fun _ s h =>
  ⟨decode_of_op_reserved h, exec_reserved s, rfl⟩

/-! ### The status numbers -/

/-- The errors are numbered 1 to 5 (R200). -/
theorem errorCode_range (e : ErrorCode) : 1 ≤ e.code.toNat ∧ e.code.toNat ≤ 5 := by
  cases e <;> decide

/-- The reserved status numbers 6 and 7 stand for no response (R200). -/
theorem status_le_five (r : Response) : r.status.toNat ≤ 5 := by
  cases r with
  | ok x => exact Nat.zero_le 5
  | error e => exact (errorCode_range e).2

/-- Status 0 is `OK` (R64, R200). -/
theorem status_eq_zero_iff (r : Response) : r.status = 0#3 ↔ ∃ x, r = .ok x := by
  cases r with
  | ok x => exact ⟨fun _ => ⟨x, rfl⟩, fun _ => rfl⟩
  | error e =>
    have hne : e.code ≠ 0#3 := fun h => absurd (errorCode_range e).1 (by simp [h])
    simp [Response.status, hne]

/-- Settles O20: the numbers are those of `ErrorCode.code`, and what they say of a response holds of every response. -/
theorem statusCodesAsNumbered : Obligations.StatusCodesAsNumbered := by
  refine ⟨fun e => ?_, fun _ _ _ r _ _ => ⟨status_le_five r, status_eq_zero_iff r⟩⟩
  cases e <;> rfl

/-! ### The idle block and the host's actions -/

/-- Settles O3, by the step lemma of the idle block. -/
theorem idleBlockDoesNothing : Obligations.IdleBlockDoesNothing := fun _ => step_nothing

/-- A reset of the block keeps the invariant: nothing is in progress or pending after it, and the parameter and the
completed exchanges stay. -/
theorem hostReset_sound {s : State} (hs : s.Sound) : s.hostReset.Sound where
  inProgress_fits := by simp
  inProgress_unanswered := by simp
  response_last := by simp
  history_fits := hs.history_fits
  history_fresh := hs.history_fresh

/-- Settles O15: presenting a request changes the queue alone, which the invariant does not read. -/
theorem hostActionsKeepSound : Obligations.HostActionsKeepSound := fun _ _ hs =>
  ⟨sound_withIncoming hs _, hostReset_sound hs⟩

end Sys2Proof.Machine
end

section
/-! Reset and hazards: a request in progress is answered by one step, or abandoned by a reset that comes first
(spec/70_reset_and_hazards.md). -/

namespace Sys2Proof.Machine

/-- A block just reset answers the request presented to it: the reset dropped every request before it, so its queue is
empty again after the step (R230; log entry 5). -/
theorem step_hostReset_present {s : State} {q : Request} (hf : q.fits s.params = true) :
    step (s.hostReset.present q) = .next (s.hostReset.exchanged q) :=
  step_presented (s := s.hostReset.present q) rfl rfl hf

/-- Settles O12: the step before the reset and the step after it exchange the same request, and an exchange leaves a
response that names no state and a history that reads only the history before it, which the reset keeps. -/
theorem resetAbandonsTheRequestInProgress : Obligations.ResetAbandonsTheRequestInProgress := by
  intro s u q hq hf hu
  rw [step_inProgress hq] at hu
  cases hu
  refine ⟨hostReset_inProgress s, hostReset_response s, hostReset_history s, s.hostReset.exchanged q,
    step_hostReset_present ((fits_iff _ q).mpr hf), ?_, ?_⟩
  · rw [exchanged_response, exchanged_response]
  · rw [exchanged_history, exchanged_history, hostReset_history]

/-- Settles O6: the step exchanges the request in progress, by the step lemma. -/
theorem acceptedRequestGetsItsOneResponse : Obligations.AcceptedRequestGetsItsOneResponse := fun s q hq =>
  ⟨s.exchanged q, _, step_inProgress hq, exchanged_response q s, exchanged_inProgress q s, exchanged_history q s,
    exchanged_incoming q s⟩

end Sys2Proof.Machine
end
